-- ==== Sys2Proof/Word.lean ====
section
/-! DEFINITION. The two word types of the block: every value is unsigned (00_scope.md rule R8). -/

namespace Sys2Proof

/-- A byte, bits 7 to 0 (00_scope.md rule R8). -/
abbrev Byte := BitVec 8

/-- A 32-bit word; its addition wraps modulo 2^32 (00_scope.md rules R6, R8, R10). -/
abbrev Word := BitVec 32

end Sys2Proof
end

