-- ==== Sys2Proof/Config.lean ====
section
/-! DEFINITION. What the spec leaves to the platform or leaves unspecified, as constants without a body: no proof
can see a value of them, so a claim holds for every value. -/

namespace Sys2Proof

/-- Which 64-byte slot of the bus the window occupies; `BASE` is a multiple of 64 (00_scope.md rule R7, D3).
DESIGN CHOICE (log entry 4): bus addresses are natural numbers. -/
opaque Config.slot : Nat

/-- `BUS_ERROR_RESPONSE` (00_scope.md rule R7, D4): what the platform answers to an access the window does not
admit. A fresh free value for each access: the argument is the number of answers given before (log entry 5). -/
opaque Config.busErrorResponse : Nat → Nat

/-- The unspecified contents of the working registers after a compression (10_state.md rules R22, R35): word `i` of
them after compression number `n` (log entry 1). -/
opaque Config.freeWord : Nat → Nat → Word

/-- The base address of the window that stands in slot `k` (00_scope.md rule R7). -/
def Config.baseOf (k : Nat) : Nat := 64 * k

/-- `BASE`, the bus address of window offset 0x00 (00_scope.md rule R7). -/
def Config.base : Nat := Config.baseOf Config.slot

end Sys2Proof
end

