-- ==== Sys2Proof/Syntax.lean ====
section
/-! DEFINITION. The commands of the opcode map (30_encoding.md rule R72): one constructor per row of
spec/opcode_table.json. No command word carries an operand (30_encoding.md rule R71). -/

namespace Sys2Proof

/-- The four commands (30_encoding.md rule R72). PUSH_CP's operand is not in its word: it is the value of DATA at
acceptance (rule R71). -/
inductive Instr where
  /-- NOP, 40_commands.md rule R100. -/
  | nop
  /-- INIT, 40_commands.md rule R101. -/
  | init
  /-- PUSH_CP, 40_commands.md rule R102. -/
  | pushCp
  /-- FINAL, 40_commands.md rule R104. -/
  | final
  deriving DecidableEq, Repr, Inhabited

end Sys2Proof
end

