-- ==== Sys2Proof/Machine/State.lean ====
section
/-! DEFINITION. The state of one instance of the block (10_state.md rule R23), its host, and the state after reset
(10_state.md rule R46). -/

namespace Sys2Proof.Machine

/-- `S.STATE` (10_state.md rule R28). -/
inductive EngineState where
  /-- After reset; no hash in progress. -/
  | uninit
  /-- A hash is in progress; code points may be pushed. -/
  | absorb
  /-- FINAL completed; the digest is readable. -/
  | done
  /-- An error aborted the hash. -/
  | error
  deriving DecidableEq, Repr, Inhabited

/-- `S.PEND` when it is not none: the accepted command and the value of `S.DATA` at acceptance (10_state.md
rule R30). -/
structure Pending where
  op : Instr
  operand : Word
  deriving DecidableEq, Repr

/-- The working registers of the compression datapath (10_state.md rule R22): a..h, T1, T2, the round counter t and
the message schedule W. -/
structure Working where
  a : Word
  b : Word
  c : Word
  d : Word
  e : Word
  f : Word
  g : Word
  h : Word
  t1 : Word
  t2 : Word
  t : BitVec 6
  w : Vector Word 64
  deriving DecidableEq, Repr

/-- The complete state `S` of one instance of the block (10_state.md rule R23), with the working registers of rule R22
and one counter of the model's own. -/
structure Block where
  /-- `S.H[0..7]`, the hash state (rule R24). -/
  h : Vector Word 8
  /-- `S.BUF[0..63]`, the block buffer (rule R25). -/
  buf : Vector Byte 64
  /-- `S.P`, the number of valid bytes in `S.BUF` (rule R25). -/
  p : BitVec 6
  /-- `S.L`, the message bit length modulo 2^64 (rule R26). -/
  l : BitVec 64
  /-- `S.OVF`, the message bit length has reached 2^64 (rule R27). -/
  ovf : Bool
  /-- `S.STATE` (rule R28). -/
  state : EngineState
  /-- `S.BUSY`, a command is accepted and not yet completed (rule R29). -/
  busy : Bool
  /-- `S.PEND`, the accepted command and its operand, or none (rule R30). -/
  pend : Option Pending
  /-- `S.REJ`, sticky: a command write was rejected (rule R31). -/
  rej : Bool
  /-- `S.ERRCODE` (rule R32). -/
  errcode : BitVec 4
  /-- `S.ERRVAL` (rule R33). -/
  errval : Word
  /-- `S.DATA` (rule R34). -/
  data : Word
  /-- The working registers (rules R22, R35). -/
  working : Working
  /-- The model's own: how many compressions were performed. It feeds the free values of the working registers (log
  entry 1) and counts what 42_padding_parsing.md rule R146 counts. -/
  compressions : Nat
  deriving DecidableEq, Repr

/-- What a bus access does (40_commands.md rule R112: reads and writes are the only kinds). -/
inductive AccessKind where
  | read
  | write (v : Word)
  deriving DecidableEq, Repr

/-- One access on the bus: an address, a width in bytes, a kind (20_memory.md rules R51, R57). -/
structure BusAccess where
  addr : Nat
  bytes : Nat
  kind : AccessKind
  deriving DecidableEq, Repr

/-- One line of a host program (30_encoding.md rule R78), or a raw bus access at any address and of any width
(20_memory.md rules R51, R57). -/
inductive HostOp where
  /-- `wr OFF, V`. -/
  | wr (off : BitVec 6) (v : Word)
  /-- `rd OFF`. -/
  | rd (off : BitVec 6)
  /-- `poll`: repeat `rd STATUS` until bit 0 of the value read is 0. -/
  | poll
  /-- An access at a bus address. -/
  | bus (a : BusAccess)
  deriving DecidableEq, Repr

/-- Who moves (10_state.md rule R20; 70_reset_and_hazards.md rule R230). -/
inductive Turn where
  | host
  | engine
  | reset
  deriving DecidableEq, Repr

/-- What the bus answers to an access (40_commands.md rules R110, R111; 20_memory.md rules R51, R57). -/
inductive Reply where
  /-- The value of an admitted read. -/
  | value (v : Word)
  /-- An admitted write was taken. -/
  | written
  /-- `BUS_ERROR_RESPONSE` to an access the window does not admit: never a register value. -/
  | busError (response : Nat)
  /-- The address is outside the window: the block does not decode it. -/
  | notDecoded
  deriving DecidableEq, Repr

/-- The registers of the window (10_state.md rule R38). -/
inductive Reg where
  | cmd
  | data
  | status
  | errval
  | lenLo
  | lenHi
  | reserved
  | digest (j : Fin 8)
  deriving DecidableEq, Repr

/-- One instance of the block, the accesses its host has still to make, which agent moves next, and what the bus has
answered so far (newest first). -/
structure State where
  /-- The block's state `S` (10_state.md rule R23). -/
  blk : Block
  /-- The host's remaining program (10_state.md rule R20, 30_encoding.md rule R78; log entry 11). -/
  host : List HostOp
  /-- Who moves next, first to last; when it is empty the engine moves if it is enabled and else the host: `LATENCY`
  and the interleaving as plain data (40_commands.md rule R94, 20_memory.md rule R62; log entry 6). -/
  sched : List Turn
  /-- The bus's answers, newest first (40_commands.md rule R110; log entry 11). -/
  replies : List Reply
  deriving DecidableEq, Repr

/-- Why the machine stops. -/
inductive Fault where
  /-- Raised by the engine's turn when BUSY = 1 and PEND is none, where completion has no command to take
  (40_commands.md rule R93). 10_state.md rule R37(a) rules it out of every run. Safe (log entry 10). -/
  | busyWithoutCommand
  deriving DecidableEq, Repr

/-- Why an instruction has no meaning. -/
inductive Refusal where
  /-- An arm of `exec` that has no meaning yet. No arm answers it: every command has its meaning. Safe. -/
  | notModelled (mnemonic : String)
  deriving DecidableEq, Repr

/-- The working registers right after reset: unspecified (10_state.md rule R46). DESIGN CHOICE zero (log entry 2). -/
def Working.reset : Working :=
  { a := 0#32, b := 0#32, c := 0#32, d := 0#32, e := 0#32, f := 0#32, g := 0#32, h := 0#32, t1 := 0#32, t2 := 0#32,
    t := 0#6,
    w := Vector.replicate 64 0#32 }

/-- The block right after reset (10_state.md rule R46, 70_reset_and_hazards.md rule R230). H, BUF and the working
registers are unspecified there: DESIGN CHOICE zero (log entry 2). -/
def Block.reset : Block :=
  { h := Vector.replicate 8 0#32, buf := Vector.replicate 64 0#8, p := 0#6, l := 0#64, ovf := false, state := .uninit,
    busy := false, pend := none, rej := false, errcode := 0#4, errval := 0#32, data := 0#32, working := Working.reset,
    compressions := 0 }

/-- The machine right after reset: the block as 10_state.md rule R46 says, a host with nothing to do, no turn
chosen, no answer given (log entries 6 and 11). -/
def State.reset : State :=
  { blk := Block.reset, host := [], sched := [], replies := [] }

end Sys2Proof.Machine
end

