-- ==== Sys2Proof/Machine/Compression.lean ====
section
/-! DEFINITION. The constants and the compression function (43_compression.md). -/

namespace Sys2Proof.Machine

/-- The initialization vector (43_compression.md rule R161). The spec marks the values as general knowledge (log
entry 13). -/
def iv : Vector Word 8 :=
  #v[0x6a09e667, 0xbb67ae85, 0x3c6ef372, 0xa54ff53a, 0x510e527f, 0x9b05688c, 0x1f83d9ab, 0x5be0cd19]

/-- The rows of the table of round constants: row r holds K[8r] to K[8r+7] (43_compression.md rule R162). -/
def kRow0 : List Word :=
  [0x428a2f98, 0x71374491, 0xb5c0fbcf, 0xe9b5dba5, 0x3956c25b, 0x59f111f1, 0x923f82a4, 0xab1c5ed5]
def kRow1 : List Word :=
  [0xd807aa98, 0x12835b01, 0x243185be, 0x550c7dc3, 0x72be5d74, 0x80deb1fe, 0x9bdc06a7, 0xc19bf174]
def kRow2 : List Word :=
  [0xe49b69c1, 0xefbe4786, 0x0fc19dc6, 0x240ca1cc, 0x2de92c6f, 0x4a7484aa, 0x5cb0a9dc, 0x76f988da]
def kRow3 : List Word :=
  [0x983e5152, 0xa831c66d, 0xb00327c8, 0xbf597fc7, 0xc6e00bf3, 0xd5a79147, 0x06ca6351, 0x14292967]
def kRow4 : List Word :=
  [0x27b70a85, 0x2e1b2138, 0x4d2c6dfc, 0x53380d13, 0x650a7354, 0x766a0abb, 0x81c2c92e, 0x92722c85]
def kRow5 : List Word :=
  [0xa2bfe8a1, 0xa81a664b, 0xc24b8b70, 0xc76c51a3, 0xd192e819, 0xd6990624, 0xf40e3585, 0x106aa070]
def kRow6 : List Word :=
  [0x19a4c116, 0x1e376c08, 0x2748774c, 0x34b0bcb5, 0x391c0cb3, 0x4ed8aa4a, 0x5b9cca4f, 0x682e6ff3]
def kRow7 : List Word :=
  [0x748f82ee, 0x78a5636f, 0x84c87814, 0x8cc70208, 0x90befffa, 0xa4506ceb, 0xbef9a3f7, 0xc67178f2]

/-- The sixty-four round constants (43_compression.md rule R162; log entry 13). -/
def kTable : List Word := kRow0 ++ kRow1 ++ kRow2 ++ kRow3 ++ kRow4 ++ kRow5 ++ kRow6 ++ kRow7

/-- `K[t]` for t in [0, 63]. -/
def kConst (t : Nat) : Word := kTable.getD t 0#32

/-- `rotr(x, n)` for 1 ≤ n ≤ 31 (00_scope.md rule R10). -/
def rotr (x : Word) (n : Nat) : Word := (x >>> n) ||| (x <<< (32 - n))

/-- `σ0` (43_compression.md rule R163). -/
def sigma0 (x : Word) : Word := rotr x 7 ^^^ rotr x 18 ^^^ (x >>> 3)

/-- `σ1` (43_compression.md rule R164). -/
def sigma1 (x : Word) : Word := rotr x 17 ^^^ rotr x 19 ^^^ (x >>> 10)

/-- `Σ0` (43_compression.md rule R165). -/
def bigSigma0 (x : Word) : Word := rotr x 2 ^^^ rotr x 13 ^^^ rotr x 22

/-- `Σ1` (43_compression.md rule R166). -/
def bigSigma1 (x : Word) : Word := rotr x 6 ^^^ rotr x 11 ^^^ rotr x 25

/-- `Ch` (43_compression.md rule R167). -/
def ch (x y z : Word) : Word := (x &&& y) ^^^ (~~~x &&& z)

/-- `Maj` (43_compression.md rule R168). -/
def maj (x y z : Word) : Word := (x &&& y) ^^^ (x &&& z) ^^^ (y &&& z)

/-- One more word of the schedule: with W[0] to W[t-1] given (t ≥ 16), W[t] is put behind them (43_compression.md rule
R170). -/
def scheduleNext (w : List Word) : List Word :=
  let t := w.length
  w ++ [sigma1 (w.getD (t - 2) 0#32) + w.getD (t - 7) 0#32 + sigma0 (w.getD (t - 15) 0#32) + w.getD (t - 16) 0#32]

/-- The schedule after `n` words were put behind the sixteen block words (43_compression.md rule R170). -/
def scheduleFrom (m : Vector Word 16) : Nat → List Word
  | 0 => m.toList
  | n + 1 => scheduleNext (scheduleFrom m n)

/-- The message schedule W[0..63] (43_compression.md rule R170). -/
def schedule (m : Vector Word 16) : List Word := scheduleFrom m 48

/-- The working variables a..h of a compression (43_compression.md rule R171). -/
structure Vars where
  a : Word
  b : Word
  c : Word
  d : Word
  e : Word
  f : Word
  g : Word
  h : Word
  deriving DecidableEq, Repr

/-- `a..h <- H[0..7]` (43_compression.md rule R171). -/
def Vars.load (h : Vector Word 8) : Vars :=
  { a := h[0], b := h[1], c := h[2], d := h[3], e := h[4], f := h[5], g := h[6], h := h[7] }

/-- `T1` of a round with constant `k` and schedule word `w` (43_compression.md rule R172). -/
def Vars.t1 (v : Vars) (k w : Word) : Word := v.h + bigSigma1 v.e + ch v.e v.f v.g + k + w

/-- `T2` of a round (43_compression.md rule R172). -/
def Vars.t2 (v : Vars) : Word := bigSigma0 v.a + maj v.a v.b v.c

/-- One round: the simultaneous shift (43_compression.md rule R172). -/
def Vars.round (v : Vars) (k w : Word) : Vars :=
  { h := v.g, g := v.f, f := v.e, e := v.d + v.t1 k w, d := v.c, c := v.b, b := v.a, a := v.t1 k w + v.t2 }

/-- The working variables after rounds 0 to n - 1 (43_compression.md rule R172). -/
def Vars.rounds (v : Vars) (w : List Word) : Nat → Vars
  | 0 => v
  | t + 1 => (v.rounds w t).round (kConst t) (w.getD t 0#32)

/-- The state update (43_compression.md rule R173). -/
def stateUpdate (h : Vector Word 8) (v : Vars) : Vector Word 8 :=
  #v[h[0] + v.a, h[1] + v.b, h[2] + v.c, h[3] + v.d, h[4] + v.e, h[5] + v.f, h[6] + v.g, h[7] + v.h]

/-- `Compress(H, M)` (43_compression.md rule R174). -/
def compress (h : Vector Word 8) (m : Vector Word 16) : Vector Word 8 :=
  stateUpdate h ((Vars.load h).rounds (schedule m) 64)

end Sys2Proof.Machine
end

