-- ==== Sys2Proof/Machine/Flags.lean ====
section
/-! DEFINITION. The STATUS fields (10_state.md rules R28, R32, R41, R47) and the carry of the length counter
(10_state.md rule R27, 42_padding_parsing.md rule R140). -/

namespace Sys2Proof.Machine

/-- The encoding of `S.STATE` in STATUS[2:1] (10_state.md rule R28). -/
def EngineState.code : EngineState → BitVec 2
  | .uninit => 0#2
  | .absorb => 1#2
  | .done => 2#2
  | .error => 3#2

/-- The error kinds of the document (60_exceptions.md rule R200). -/
inductive ErrorKind where
  /-- A code point exceeds the representable range (rule R201). -/
  | encodingError
  /-- The message bit length reached 2^64 (rule R202). -/
  | messageTooLargeError
  /-- The decoder's error: its code is kept, no rule raises it (rule R208). -/
  | decodingError
  deriving DecidableEq, Repr

/-- `code(E)` (60_exceptions.md rule R200). -/
def ErrorKind.code : ErrorKind → BitVec 4
  | .encodingError => 1#4
  | .messageTooLargeError => 2#4
  | .decodingError => 3#4

/-- `zext_32(S.OVF ∥ S.ERRCODE ∥ S.REJ ∥ S.STATE ∥ S.BUSY)` (10_state.md rule R41). -/
def Block.status (b : Block) : Word :=
  (BitVec.ofBool b.ovf ++ b.errcode ++ BitVec.ofBool b.rej ++ b.state.code ++ BitVec.ofBool b.busy).setWidth 32

/-- The 65-bit sum of `S.L` and 8 (42_padding_parsing.md rule R140). -/
def lenSum (l : BitVec 64) : BitVec 65 := l.setWidth 65 + 8#65

/-- The carry out of bit 63, bit 64 of the sum (42_padding_parsing.md rule R140). -/
def lenCarry (l : BitVec 64) : Bool := (lenSum l).getLsbD 64

/-- The new value of `S.L`, bits 63:0 of the sum (42_padding_parsing.md rule R140). -/
def lenNext (l : BitVec 64) : BitVec 64 := (lenSum l).setWidth 64

end Sys2Proof.Machine
end

