-- ==== Sys2Proof/Machine/Operands.lean ====
section
/-! DEFINITION. The operand forms: the operand of a command (30_encoding.md rule R71), and the register a bus access
selects (20_memory.md rules R51, R57; 10_state.md rule R38). -/

namespace Sys2Proof.Machine

/-- The operand x of the command being completed: the value latched in `S.PEND` (30_encoding.md rule R71, 40_commands.md
rule R93). DESIGN CHOICE where nothing is latched, which no engine step reaches: the value an acceptance would latch now,
`S.DATA` (log entry 9). -/
def Block.operand (b : Block) : Word :=
  match b.pend with
  | some q => q.operand
  | none => b.data

/-- The offsets of the window by name (10_state.md rule R38). -/
def offCmd : BitVec 6 := 0x00#6
def offData : BitVec 6 := 0x04#6
def offStatus : BitVec 6 := 0x08#6
def offErrval : BitVec 6 := 0x0C#6
def offLenLo : BitVec 6 := 0x10#6
def offLenHi : BitVec 6 := 0x14#6

/-- The offset of DIGESTj, 0x20 + 4j (10_state.md rule R38). -/
def offDigest (j : Fin 8) : BitVec 6 := BitVec.ofNat 6 (0x20 + 4 * j.val)

/-- The offset of bus address `addr` in the window at `base`, `off = A - BASE`; none outside `BASE` to `BASE + 0x3F`
(20_memory.md rule R51). -/
def windowOffset (base addr : Nat) : Option (BitVec 6) :=
  if base ≤ addr ∧ addr < base + 64 then some (BitVec.ofNat 6 (addr - base)) else none

/-- "The window admits only naturally aligned 32-bit accesses (`off[1:0] = 0`)" (20_memory.md rule R57). -/
def accessAdmitted (bytes : Nat) (off : BitVec 6) : Bool :=
  decide (bytes = 4) && (off.extractLsb 1 0 == 0#2)

/-- "`off[5:2]` selecting one of the sixteen registers" (20_memory.md rule R51, 10_state.md rule R38). -/
def regOf (off : BitVec 6) : Reg :=
  match (off.extractLsb 5 2).toNat with
  | 0 => .cmd
  | 1 => .data
  | 2 => .status
  | 3 => .errval
  | 4 => .lenLo
  | 5 => .lenHi
  | 6 => .reserved
  | 7 => .reserved
  | n => .digest (Fin.ofNat 8 (n - 8))

end Sys2Proof.Machine
end

