-- ==== Sys2Proof/Machine/Ops.lean ====
section
/-! DEFINITION. The named operations over the block's registers that several rules share: the error entry and the way
out of it, rejection, latching and finishing a command, the free contents of the working registers, reset. -/

namespace Sys2Proof.Machine

/-- The error entry `raise E(v)` (60_exceptions.md rule R203): the one place an error is taken. -/
def Block.raise (b : Block) (e : ErrorKind) (v : Word) : Block :=
  { b with state := .error, errcode := e.code, errval := v }

/-- The way out of an error and the start of a hash: every field INIT writes but the hash state (60_exceptions.md rule
R205, 40_commands.md rule R101). -/
def Block.clearForHash (b : Block) : Block :=
  { b with p := 0#6, l := 0#64, ovf := false, errcode := 0#4, errval := 0#32, rej := false, state := .absorb }

/-- `reject` (60_exceptions.md rule R210): `S.REJ <- 1`, nothing else. -/
def Block.reject (b : Block) : Block := { b with rej := true }

/-- The end of an acceptance (40_commands.md rule R91): `S.PEND <- (op, S.DATA)`, `S.BUSY <- 1`. -/
def Block.latch (b : Block) (i : Instr) : Block :=
  { b with pend := some { op := i, operand := b.data }, busy := true }

/-- The end of a completion (40_commands.md rule R93): `S.BUSY <- 0`, `S.PEND <- none`. -/
def Block.finish (b : Block) : Block := { b with busy := false, pend := none }

/-- The unspecified contents of the working registers after compression number `n` (10_state.md rules R22, R35): free
values (log entry 1). -/
def Working.unspecified (n : Nat) : Working :=
  let x := Config.freeWord n
  { a := x 0, b := x 1, c := x 2, d := x 3, e := x 4, f := x 5, g := x 6, h := x 7, t1 := x 8, t2 := x 9,
    t := (x 10).setWidth 6, w := Vector.ofFn fun i : Fin 64 => x (11 + i.val) }

/-- Reset of the block (70_reset_and_hazards.md rules R230, R231): every field at its reset value; the model's own
counter of compressions, which is no state of the block, goes on (log entry 1). -/
def Block.afterReset (b : Block) : Block := { Block.reset with compressions := b.compressions }

/-- One answer of the bus is recorded (log entry 11). -/
def State.answer (s : State) (r : Reply) : State := { s with replies := r :: s.replies }

/-- Completion of a command with the given effect (40_commands.md rule R93): the effect gets the operand and the block,
and then BUSY and PEND are cleared, all in one step (20_memory.md rule R58). -/
def State.completeWith (s : State) (effect : Word → Block → Block) : State :=
  { s with blk := (effect s.blk.operand s.blk).finish }

end Sys2Proof.Machine
end

