-- ==== Sys2Proof/Machine/Padding.lean ====
section
/-! DEFINITION. Block parsing, absorption and padding as the block performs them, one byte at a time
(42_padding_parsing.md rules R140, R141, R142, R145). -/

namespace Sys2Proof.Machine

/-- Word j of the block whose byte i is `f i`: `B[4j] ∥ B[4j+1] ∥ B[4j+2] ∥ B[4j+3]` (42_padding_parsing.md rule R142,
20_memory.md rule R54). -/
def blockWord (f : Nat → Byte) (j : Nat) : Word := f (4 * j) ++ f (4 * j + 1) ++ f (4 * j + 2) ++ f (4 * j + 3)

/-- The sixteen words of the block whose byte i is `f i` (42_padding_parsing.md rule R142). -/
def blockWords (f : Nat → Byte) : Vector Word 16 := Vector.ofFn fun j : Fin 16 => blockWord f j.val

/-- `parse(S.BUF)` (42_padding_parsing.md rules R141, R142). -/
def parse (buf : Vector Byte 64) : Vector Word 16 := blockWords fun i => buf[i]?.getD 0#8

/-- `append(b)` (42_padding_parsing.md rule R141): the byte goes to `S.BUF[S.P]`, and the block is compressed when it was
the 64th. The compression leaves the working registers unspecified (10_state.md rule R35; log entry 1). -/
def Block.append (b : Block) (x : Byte) : Block :=
  let buf := b.buf.set b.p.toNat x b.p.isLt
  if b.p = 63#6 then
    { b with
      buf := buf
      h := compress b.h (parse buf)
      p := 0#6
      working := Working.unspecified b.compressions
      compressions := b.compressions + 1 }
  else
    { b with buf := buf, p := b.p + 1#6 }

/-- `absorb(b)` (42_padding_parsing.md rule R140): append one message byte and count its bits. -/
def Block.absorb (b : Block) (x : Byte) : Block :=
  let b' := b.append x
  { b' with l := lenNext b.l, ovf := b.ovf || lenCarry b.l }

/-- `absorb` once per byte, first to last (40_commands.md rules R102, R103). -/
def Block.absorbAll (b : Block) (xs : List Byte) : Block := xs.foldl Block.absorb b

/-- `append` once per byte, first to last. -/
def Block.appendAll (b : Block) (xs : List Byte) : Block := xs.foldl Block.append b

/-- `while S.P ≠ 56: append(0x00)` (42_padding_parsing.md rule R145), at most `n` times; 64 times are always enough, and
`Laws/Padding.lean` says so. -/
def Block.zerosTo56 : Nat → Block → Block
  | 0, b => b
  | n + 1, b => if b.p = 56#6 then b else Block.zerosTo56 n (b.append 0x00#8)

/-- The eight length bytes `Lm[63:56]` to `Lm[7:0]`, most significant first (42_padding_parsing.md rule R145,
20_memory.md rule R55). -/
def lengthBytes (lm : BitVec 64) : List Byte :=
  [lm.extractLsb 63 56, lm.extractLsb 55 48, lm.extractLsb 47 40, lm.extractLsb 39 32,
   lm.extractLsb 31 24, lm.extractLsb 23 16, lm.extractLsb 15 8, lm.extractLsb 7 0]

/-- `pad_and_finish()` (42_padding_parsing.md rule R145). -/
def Block.padAndFinish (b : Block) : Block :=
  (Block.zerosTo56 64 (b.append 0x80#8)).appendAll (lengthBytes b.l)

end Sys2Proof.Machine
end

