-- ==== Sys2Proof/Machine/Utf8.lean ====
section
/-! DEFINITION. The UTF-8 encoder (41_utf8_encoder.md). -/

namespace Sys2Proof.Machine

/-- The largest code point the encoder takes (00_scope.md rule R6, 41_utf8_encoder.md rule R123). -/
def maxCodePoint : Nat := 0x1FFFFF

/-- `Encode(c)` (41_utf8_encoder.md rule R121), its bytes first to last; none is `EncodingError`. -/
def utf8Encode (c : Word) : Option (List Byte) :=
  if c.toNat ≤ 0x7F then
    some [0b0#1 ++ c.extractLsb 6 0]
  else if c.toNat ≤ 0x7FF then
    some [0b110#3 ++ c.extractLsb 10 6, 0b10#2 ++ c.extractLsb 5 0]
  else if c.toNat ≤ 0xFFFF then
    some [0b1110#4 ++ c.extractLsb 15 12, 0b10#2 ++ c.extractLsb 11 6, 0b10#2 ++ c.extractLsb 5 0]
  else if c.toNat ≤ maxCodePoint then
    some [0b11110#5 ++ c.extractLsb 20 18, 0b10#2 ++ c.extractLsb 17 12, 0b10#2 ++ c.extractLsb 11 6,
      0b10#2 ++ c.extractLsb 5 0]
  else none

/-- The bytes of `Encode(c)`, none of them where it raises the error. -/
def utf8Bytes (c : Word) : List Byte := (utf8Encode c).getD []

end Sys2Proof.Machine
end

