-- ==== Sys2Proof/Machine/Commands.lean ====
section
/-! DEFINITION. The meanings of the four commands: the effect of each at its completion (40_commands.md rules R93, R100,
R101, R102, R104), over the shared operations. -/

namespace Sys2Proof.Machine

/-- `init_effect()` (40_commands.md rule R101). -/
def Block.initEffect (b : Block) : Block := { b.clearForHash with h := iv }

/-- `push_effect(x)` (40_commands.md rule R102): the error entry above 0x1FFFFF, else the bytes of `Encode(x)` are
absorbed in order. -/
def Block.pushEffect (x : Word) (b : Block) : Block :=
  match utf8Encode x with
  | none => b.raise .encodingError x
  | some bytes => b.absorbAll bytes

/-- `final_effect()` (40_commands.md rule R104). -/
def Block.finalEffect (b : Block) : Block :=
  if b.ovf then b.raise .messageTooLargeError 0#32
  else { b.padAndFinish with state := .done }

/-- NOP (40_commands.md rule R100): no effect. -/
def execNop (s : State) : Host.Outcome State Fault Refusal := .next (s.completeWith fun _ b => b)

/-- INIT (40_commands.md rule R101). -/
def execInit (s : State) : Host.Outcome State Fault Refusal := .next (s.completeWith fun _ b => b.initEffect)

/-- PUSH_CP (40_commands.md rule R102). -/
def execPushCp (s : State) : Host.Outcome State Fault Refusal := .next (s.completeWith Block.pushEffect)

/-- FINAL (40_commands.md rule R104). -/
def execFinal (s : State) : Host.Outcome State Fault Refusal := .next (s.completeWith fun _ b => b.finalEffect)

end Sys2Proof.Machine
end

