-- ==== Sys2Proof/Machine/Dispatch.lean ====
section
/-! DEFINITION. The meaning of every command: its completion (40_commands.md rule R93). -/

namespace Sys2Proof.Machine

def exec (i : Instr) (s : State) : Host.Outcome State Fault Refusal :=
  match i with
  | .nop => Sys2Proof.Machine.execNop s
  | .init => Sys2Proof.Machine.execInit s
  | .pushCp => Sys2Proof.Machine.execPushCp s
  | .final => Sys2Proof.Machine.execFinal s

end Sys2Proof.Machine
end

