-- ==== Sys2Proof/WellFormed.lean ====
section
/-! DEFINITION. Which commands and which command words are well-formed (30_encoding.md rules R70, R72, R75). -/

namespace Sys2Proof

/-- Every command is well-formed: it has no operand field that could be out of range (30_encoding.md rule R71). -/
def Instr.wf : Instr → Bool
  | .nop => true
  | .init => true
  | .pushCp => true
  | .final => true

/-- The reserved field RSV = bits 31:4 is zero (30_encoding.md rules R70, R75). -/
def reservedClear (v : Word) : Bool := v.extractLsb 31 4 == 0#28

/-- The opcode OP = bits 3:0 is one of the four defined ones (30_encoding.md rule R72). -/
def opcodeDefined (v : Word) : Bool := decide ((v.extractLsb 3 0).toNat ≤ 3)

/-- "A command word v selects an instruction if and only if `v[31:4] = 0` and `v[3:0]` is 0x0, 0x1, 0x2 or 0x3"
(30_encoding.md rule R72). -/
def commandWordWf (v : Word) : Bool := reservedClear v && opcodeDefined v

end Sys2Proof
end

