-- ==== Sys2Proof/Decode.lean ====
section
/-! DEFINITION. The command decoder of 30_encoding.md rule R73, total on all 2^32 words, and the encoder written from
the opcode map of rule R72. A command is one 32-bit bus word without a byte order (20_memory.md rule R56). -/

namespace Sys2Proof

/-- Why a word is ILLEGAL (30_encoding.md rules R74, R75). -/
inductive IllegalWord where
  /-- A bit of 31:4 is set (rule R75). -/
  | reservedBits
  /-- The opcode is 0x4 to 0xF (rule R74). -/
  | reservedOpcode
  deriving DecidableEq, Repr

/-- What the decoder answers (30_encoding.md rule R73). -/
inductive Decoded where
  | command (i : Instr)
  | illegal (why : IllegalWord)
  deriving DecidableEq, Repr

/-- Decoding a command word (30_encoding.md rule R73). -/
def decode (v : Word) : Decoded :=
  if v.extractLsb 31 4 ≠ 0#28 then .illegal .reservedBits
  else match (v.extractLsb 3 0).toNat with
    | 0x0 => .command .nop
    | 0x1 => .command .init
    | 0x2 => .command .pushCp
    | 0x3 => .command .final
    | _ => .illegal .reservedOpcode

/-- The opcode OP of a command (30_encoding.md rule R72). -/
def Instr.opcode : Instr → BitVec 4
  | .nop => 0x0#4
  | .init => 0x1#4
  | .pushCp => 0x2#4
  | .final => 0x3#4

/-- The command word of a command: RSV = 0 above OP (30_encoding.md rules R70, R72). -/
def encode (i : Instr) : Word := 0#28 ++ i.opcode

/-- The bus word whose bits are `w`, the bits above `nbits` being zero. -/
def tableWord (nbits w : Nat) : Word := BitVec.ofNat 32 (w % 2 ^ nbits)

/-- The command the decoder reads from the table word `w` of `nbits` bits (30_encoding.md rule R73): none where it
refuses the word. "Every command is exactly one 32-bit word" (rule R70), so a longer one is refused. -/
def decodeTableWord (nbits w : Nat) : Option Instr :=
  if nbits ≤ 32 then
    match decode (tableWord nbits w) with
    | .command i => some i
    | .illegal _ => none
  else none

end Sys2Proof
end

