-- ==== Sys2Proof/Machine/Window.lean ====
section
/-! DEFINITION. The host's accesses to the register window: RegRead, RegWrite and the acceptance of a command
(40_commands.md rules R91, R110, R111). -/

namespace Sys2Proof.Machine

/-- Whether a command is legal in the engine's state (10_state.md rule R28, 40_commands.md rule R91 third check). -/
def legalIn (i : Instr) (st : EngineState) : Bool :=
  match i with
  | .nop => true
  | .init => true
  | .pushCp => decide (st = .absorb)
  | .final => decide (st = .absorb)

/-- `accept(v)` (40_commands.md rule R91), its checks in the order written. -/
def Block.accept (b : Block) (v : Word) : Block :=
  if b.busy then b.reject
  else match decode v with
    | .illegal _ => b.reject
    | .command i => if legalIn i b.state then b.latch i else b.reject

/-- What a register of the window reads as (40_commands.md rule R110). -/
def Block.readReg (b : Block) : Reg → Word
  | .cmd => 0#32
  | .data => b.data
  | .status => b.status
  | .errval => b.errval
  | .lenLo => b.l.extractLsb 31 0
  | .lenHi => b.l.extractLsb 63 32
  | .reserved => 0#32
  | .digest j => if b.state = .done then b.h[j] else 0#32

/-- What writing a register of the window does (40_commands.md rule R111, 10_state.md rule R45). -/
def Block.writeReg (b : Block) (v : Word) : Reg → Block
  | .cmd => b.accept v
  | .data => { b with data := v }
  | .status => b
  | .errval => b
  | .lenLo => b
  | .lenHi => b
  | .reserved => b
  | .digest _ => b

/-- `RegRead(off)` for an admitted access (40_commands.md rule R110). -/
def Block.regRead (b : Block) (off : BitVec 6) : Word := b.readReg (regOf off)

/-- `RegWrite(off, v)` for an admitted access (40_commands.md rule R111). -/
def Block.regWrite (b : Block) (off : BitVec 6) (v : Word) : Block := b.writeReg v (regOf off)

/-- The block after an access at a window offset: one the window does not admit changes nothing (20_memory.md rule
R57), a read changes nothing (rule R59). -/
def Block.accessed (b : Block) (off : BitVec 6) (bytes : Nat) (k : AccessKind) : Block :=
  if accessAdmitted bytes off then
    match k with
    | .read => b
    | .write v => b.regWrite off v
  else b

/-- What the bus answers to an access at a window offset; `n` numbers the free answers of the platform (20_memory.md
rule R57; log entry 5). -/
def Block.replyTo (b : Block) (off : BitVec 6) (bytes : Nat) (k : AccessKind) (n : Nat) : Reply :=
  if accessAdmitted bytes off then
    match k with
    | .read => .value (b.regRead off)
    | .write _ => .written
  else .busError (Config.busErrorResponse n)

end Sys2Proof.Machine
end

