-- ==== Sys2Proof/Machine/Host.lean ====
section
/-! DEFINITION. The host's turn and the reset turn, whose turn it is, what the engine fetches, and the host's
pseudo-instructions (10_state.md rule R20; 30_encoding.md rules R78, R79; 70_reset_and_hazards.md rule R230). -/

namespace Sys2Proof.Machine

/-- The host makes one access at a window offset (20_memory.md rules R57, R58, R62). -/
def State.access (s : State) (off : BitVec 6) (bytes : Nat) (k : AccessKind) : State :=
  { s with blk := s.blk.accessed off bytes k }.answer (s.blk.replyTo off bytes k s.replies.length)

/-- The host makes one access at a bus address: the block decodes only the addresses of its window (20_memory.md rule
R51). -/
def State.busAccess (s : State) (a : BusAccess) : State :=
  match windowOffset Config.base a.addr with
  | some off => s.access off a.bytes a.kind
  | none => s.answer .notDecoded

/-- A host turn: the next line of the host's program (30_encoding.md rule R78). `poll` reads STATUS and is done when bit
0 of the value read is 0. A host with nothing left to do leaves everything as it is (log entry 7). -/
def State.hostTurn (s : State) : State :=
  match s.host with
  | [] => s
  | .wr off v :: rest => { s with host := rest }.access off 4 (.write v)
  | .rd off :: rest => { s with host := rest }.access off 4 .read
  | .bus a :: rest => { s with host := rest }.busAccess a
  | .poll :: rest =>
    if (s.blk.regRead offStatus).getLsbD 0 then s.access offStatus 4 .read
    else { s with host := rest }.access offStatus 4 .read

/-- A reset turn: the platform resets the block; the host, which is outside the block, keeps its program (log
entry 11). -/
def State.resetTurn (s : State) : State := { s with blk := s.blk.afterReset }

/-- Whose turn it is: the first of the schedule; where the schedule says nothing, the engine's if it is enabled (weak
fairness, 40_commands.md rule R94) and else the host's (log entry 6). -/
def State.turn (s : State) : Turn :=
  match s.sched with
  | t :: _ => t
  | [] => if s.blk.busy then .engine else .host

/-- The turn is taken out of the schedule. -/
def State.popTurn (s : State) : State := { s with sched := s.sched.tail }

/-- What the engine finds when it is its turn (40_commands.md rule R93, 10_state.md rules R29, R30). -/
inductive Fetched where
  /-- BUSY = 0: completion is not enabled. -/
  | idle
  /-- BUSY = 1 and PEND holds this command. -/
  | command (i : Instr)
  /-- BUSY = 1 and PEND is none, which 10_state.md rule R37(a) rules out. -/
  | nothing
  deriving DecidableEq, Repr

/-- The engine's fetch: the accepted command in `S.PEND` (40_commands.md rule R93). -/
def Block.fetch (b : Block) : Fetched :=
  if b.busy then
    match b.pend with
    | some q => .command q.op
    | none => .nothing
  else .idle

/-- The command word `v` where the next step fetches: a legal word stands in `S.PEND` with the operand DATA holds, as
after an acceptance, and it is the engine's turn; an illegal word never gets into PEND, so it stands in the host's next
write to CMD, where 40_commands.md rule R91 rejects it (log entry 8). -/
def State.placeCommand (s : State) (v : Word) : State :=
  match decode v with
  | .command i => { s with blk := s.blk.latch i, sched := .engine :: s.sched }
  | .illegal _ => { s with host := .wr offCmd v :: s.host, sched := .host :: s.sched }

/-! The pseudo-instructions and their expansions (30_encoding.md rule R79). -/

/-- `NOP` = `wr CMD, 0x00000000` ; `poll`. -/
def pseudoNop : List HostOp := [.wr offCmd 0x00000000#32, .poll]

/-- `INIT` = `wr CMD, 0x00000001` ; `poll`. -/
def pseudoInit : List HostOp := [.wr offCmd 0x00000001#32, .poll]

/-- `PUSH c` = `wr DATA, c` ; `wr CMD, 0x00000002` ; `poll`. -/
def pseudoPush (c : Word) : List HostOp := [.wr offData c, .wr offCmd 0x00000002#32, .poll]

/-- `FINAL` = `wr CMD, 0x00000003` ; `poll`. -/
def pseudoFinal : List HostOp := [.wr offCmd 0x00000003#32, .poll]

/-- `RDDIGEST` = `rd DIGEST0` ; ... ; `rd DIGEST7`. -/
def pseudoRdDigest : List HostOp :=
  [.rd (offDigest 0), .rd (offDigest 1), .rd (offDigest 2), .rd (offDigest 3),
   .rd (offDigest 4), .rd (offDigest 5), .rd (offDigest 6), .rd (offDigest 7)]

/-- `HASH "t"`, where `cs` are the code points of t in order. -/
def pseudoHash (cs : List Word) : List HostOp :=
  pseudoInit ++ cs.flatMap pseudoPush ++ pseudoFinal ++ [.rd offStatus] ++ pseudoRdDigest

end Sys2Proof.Machine
end

