-- ==== Sys2Proof/Machine/Step.lean ====
section
/-! DEFINITION. One step of the machine: one turn of the host, of the engine or of the platform's reset. -/

namespace Sys2Proof.Machine

/-- One step: the agent whose turn it is moves (10_state.md rule R20). The engine's move is the completion of the
accepted command (40_commands.md rule R93); it has none while BUSY = 0. -/
def step (s : State) : Host.Outcome State Fault Refusal :=
  match s.turn with
  | .host => .next s.popTurn.hostTurn
  | .reset => .next s.popTurn.resetTurn
  | .engine =>
    match s.blk.fetch with
    | .idle => .next s.popTurn
    | .command i => exec i s.popTurn
    | .nothing => .fault .busyWithoutCommand

/-- `s` with the command word `w` where the very next step fetches its command (log entry 8). -/
def State.withFetchWord (s : State) (nbits w : Nat) : State := s.placeCommand (tableWord nbits w)

end Sys2Proof.Machine
end

