-- ==== Sys2Proof/Machine/System.lean ====
section
/-! DEFINITION. Several instances of the block on one bus (60_exceptions.md rule R215, 00_scope.md rule R7 `N_INST`). -/

namespace Sys2Proof.Machine

/-- One instance: the 64-byte bus slot of its window and its own copy of the state (60_exceptions.md rule R215). -/
structure Placed where
  slot : Nat
  blk : Block
  deriving DecidableEq, Repr

/-- A system: its instances, `N_INST` of them, and what the bus answered (newest first). -/
structure System where
  insts : List Placed
  replies : List Reply
  deriving DecidableEq, Repr

/-- The system right after reset: one instance in each of the given slots, each with its own copy of the reset state
(60_exceptions.md rule R215, 10_state.md rule R46), nothing answered yet. What the copies hold where rule R46 leaves a
field unspecified is the model's choice (log entry 2). -/
def System.reset (slots : List Nat) : System :=
  { insts := slots.map fun k => { slot := k, blk := Block.reset }, replies := [] }

/-- At least one instance, each with its own window (60_exceptions.md rule R215, 00_scope.md rule R7). -/
def System.wf (sys : System) : Bool := !sys.insts.isEmpty && decide (sys.insts.map Placed.slot).Nodup

/-- What moves in a system: an access on the bus, the engine or the reset of one instance. Their order is any order
(20_memory.md rule R62; U11 of 93_implementation_defined.md). -/
inductive SystemEvent where
  | access (a : BusAccess)
  | turn (k : Nat) (t : Turn)
  deriving DecidableEq, Repr

/-- The window offset of a bus address in an instance's window (20_memory.md rule R51). -/
def Placed.offset (q : Placed) (addr : Nat) : Option (BitVec 6) := windowOffset (Config.baseOf q.slot) addr

/-- An instance after an access on the bus: it takes the access only where its window holds the address. -/
def Placed.accessed (q : Placed) (a : BusAccess) : Placed :=
  match q.offset a.addr with
  | some off => { q with blk := q.blk.accessed off a.bytes a.kind }
  | none => q

/-- What the bus answers: the answer of the instance whose window holds the address. -/
def System.replyTo (sys : System) (a : BusAccess) : Reply :=
  match sys.insts.find? fun q => (q.offset a.addr).isSome with
  | none => .notDecoded
  | some q =>
    match q.offset a.addr with
    | some off => q.blk.replyTo off a.bytes a.kind sys.replies.length
    | none => .notDecoded

/-- One access on the bus of the system. -/
def System.access (sys : System) (a : BusAccess) : System :=
  { insts := sys.insts.map fun q => q.accessed a, replies := sys.replyTo a :: sys.replies }

/-- One instance alone, with nothing to do for a host but the given turn. -/
def Placed.alone (q : Placed) (t : Turn) : State := { blk := q.blk, host := [], sched := [t], replies := [] }

/-- One step of the system. An instance that is not there has no turn. -/
def System.step (sys : System) : SystemEvent → Host.Outcome System Fault Refusal
  | .access a => .next (sys.access a)
  | .turn k t =>
    match sys.insts[k]? with
    | none => .next sys
    | some q =>
      match Machine.step (q.alone t) with
      | .next s => .next { sys with insts := sys.insts.set k { q with blk := s.blk } }
      | .fault r => .fault r
      | .refused r => .refused r

/-- The system after the events, first to last, stopping at the first fault or refusal. -/
def System.run : List SystemEvent → System → Host.Outcome System Fault Refusal
  | [], sys => .next sys
  | ev :: evs, sys =>
    match sys.step ev with
    | .next sys' => System.run evs sys'
    | .fault r => .fault r
    | .refused r => .refused r

end Sys2Proof.Machine
end

