-- ==== Sys2Proof/Machine/Reference.lean ====
section
/-! DEFINITION. The document's own definitions over the whole message, against which the block's incremental form is
stated: message assembly, Pad, Parse, the digest, the result of `hash(text)` and its hex rendering by the host
(41_utf8_encoder.md rule R128; 42_padding_parsing.md rules R142, R143, R144, R148; 44_digest.md rules R191, R192). -/

namespace Sys2Proof.Machine

/-- The message of the code points `cs`: their encoded units in order (41_utf8_encoder.md rule R128). -/
def messageOf (cs : List Word) : List Byte := cs.flatMap utf8Bytes

/-- The bits of a byte, most significant first (00_scope.md rule R9). -/
def bitsOfByte (x : Byte) : List Bool := (List.range 8).map fun i => x.getMsbD i

/-- The bit string of a byte message (20_memory.md rule R53). -/
def bitsOf (m : List Byte) : List Bool := m.flatMap bitsOfByte

/-- The 64-bit big-endian length field `L[63:0]`, most significant bit first (42_padding_parsing.md rule R143). -/
def lengthBits (n : Nat) : List Bool := (List.range 64).map fun i => (BitVec.ofNat 64 n).getMsbD i

/-- `Pad(m) = m ∥ 0b1 ∥ 0^k ∥ L[63:0]` with `k = (447 - L) mod 512`, over bits (42_padding_parsing.md rule R143). -/
def padBits (m : List Bool) : List Bool :=
  m ++ [true] ++ List.replicate ((447 - (m.length : Int)) % 512).toNat false ++ lengthBits m.length

/-- Padding of a byte message: 0x80, `z = (55 - m) mod 64` zero bytes, eight length bytes (42_padding_parsing.md rule
R144). -/
def padBytes (m : List Byte) : List Byte :=
  m ++ [0x80#8] ++ List.replicate ((55 - (m.length : Int)) % 64).toNat 0x00#8
    ++ lengthBytes (BitVec.ofNat 64 (8 * m.length))

/-- Block i of a padded message: its bytes 64i to 64i+63 as sixteen words (42_padding_parsing.md rule R142). -/
def blockOf (p : List Byte) (i : Nat) : Vector Word 16 := blockWords fun j => p.getD (64 * i + j) 0#8

/-- Parse: the blocks of a padded message in order (42_padding_parsing.md rule R142). -/
def parseBlocks (p : List Byte) : List (Vector Word 16) := (List.range (p.length / 64)).map (blockOf p)

/-- `H_{i+1} = Compress(H_i, B_i)` over the blocks, from `h` (44_digest.md rule R191). -/
def compressBlocks (h : Vector Word 8) (bs : List (Vector Word 16)) : Vector Word 8 := bs.foldl compress h

/-- The digest of a message: the compressions of the blocks of `Pad(m)`, starting from IV (42_padding_parsing.md rule
R148, 44_digest.md rule R191). -/
def digestOf (m : List Byte) : Vector Word 8 := compressBlocks iv (parseBlocks (padBytes m))

/-- The number of compressions of a message of m bytes (42_padding_parsing.md rule R146). -/
def blockCount (m : Nat) : Nat := (m + 8) / 64 + 1

/-- The outcomes of the document's `hash(text)` (44_digest.md rule R191). -/
inductive HashResult where
  | encodingError (c : Word)
  | messageTooLarge
  | digest (d : Vector Word 8)
  deriving DecidableEq, Repr

/-- The first code point above 0x1FFFFF, if any (44_digest.md rule R191). -/
def firstTooLarge (cs : List Word) : Option Word := cs.find? fun c => decide (maxCodePoint < c.toNat)

/-- `hash(text)` for the code points `cs` (44_digest.md rule R191). -/
def hashText (cs : List Word) : HashResult :=
  match firstTooLarge cs with
  | some c => .encodingError c
  | none => if 2 ^ 64 ≤ 8 * (messageOf cs).length then .messageTooLarge else .digest (digestOf (messageOf cs))

/-- `nib(v) = "0123456789abcdef"[v]` (44_digest.md rule R192). -/
def nib (v : BitVec 4) : Char :=
  ['0', '1', '2', '3', '4', '5', '6', '7', '8', '9', 'a', 'b', 'c', 'd', 'e', 'f'].getD v.toNat '0'

/-- `hex8(w)`: eight digits, most significant first (44_digest.md rule R192; log entry 13). -/
def hex8 (w : Word) : List Char :=
  [nib (w.extractLsb 31 28), nib (w.extractLsb 27 24), nib (w.extractLsb 23 20), nib (w.extractLsb 19 16),
   nib (w.extractLsb 15 12), nib (w.extractLsb 11 8), nib (w.extractLsb 7 4), nib (w.extractLsb 3 0)]

/-- `hex(D[0..7])`, rendered by the host from the DIGEST registers (44_digest.md rule R192). -/
def hexDigest (d : Vector Word 8) : List Char := d.toList.flatMap hex8

end Sys2Proof.Machine
end

