-- ==== Sys2Proof/Safety.lean ====
section
/-! DEFINITION. What counts as a safe run, in the terms claims use: the invariants of 10_state.md rule R37 and of
60_exceptions.md rule R200, what the host can observe, and which fields are unspecified (93_implementation_defined.md
U1, U2). -/

namespace Sys2Proof.Machine

/-- "Invariants that hold in every state reachable from reset, between host accesses" (10_state.md rule R37). -/
structure Block.Rule37 (b : Block) : Prop where
  /-- (a) -/
  busy_iff : b.busy = false ↔ b.pend = none
  /-- (b) -/
  absorb_p : b.state = .absorb → b.p = b.l.extractLsb 8 3
  /-- (c) -/
  done_p : b.state = .done → b.p = 0#6
  /-- (d) -/
  l_low : b.l.extractLsb 2 0 = 0#3
  /-- (e) -/
  err_iff : b.errcode ≠ 0#4 ↔ b.state = .error
  /-- (f) -/
  uninit_zero : b.state = .uninit → b.l = 0#64 ∧ b.ovf = false ∧ b.p = 0#6

/-- What makes R37 inductive: a latched command is legal in the state it was latched in (40_commands.md rule R91, third
check). DEDUCED: the state changes only at completions and at reset. -/
def Block.PendLegal (b : Block) : Prop := ∀ q, b.pend = some q → legalIn q.op b.state = true

/-- The error detail is one the block produces: codes 3 to 15 never, each code with its value (60_exceptions.md rules
R200, R201, R202; 10_state.md rules R32, R33). -/
def Block.ErrorDetail (b : Block) : Prop :=
  (b.errcode = 0#4 ∧ b.errval = 0#32) ∨ (b.errcode = 1#4 ∧ maxCodePoint < b.errval.toNat) ∨
    (b.errcode = 2#4 ∧ b.errval = 0#32 ∧ b.ovf = true)

/-- The invariant of every run. -/
structure Block.Inv (b : Block) : Prop where
  rule37 : b.Rule37
  pendLegal : b.PendLegal
  detail : b.ErrorDetail
  /-- A digest is never that of a message of 2^64 bits or more (42_padding_parsing.md rule R149). -/
  done_ovf : b.state = .done → b.ovf = false

/-- A step that answers a next state: no fault, no refusal. -/
def SafeStep (s : State) : Prop := ∃ t, step s = .next t

/-- `n` steps of the machine, stopping at the first fault or refusal. -/
def run (n : Nat) (s : State) : Host.Outcome State Fault Refusal := Host.Core.run core n s

/-- The engine completes the command `i` in this step. -/
def Completes (s : State) (i : Instr) : Prop := s.turn = .engine ∧ s.blk.fetch = .command i

/-- The bytes appended since the last compression, in order: `S.BUF[i]` for `i < S.P` (10_state.md rule R25). -/
def Block.valid (b : Block) : List Byte := b.buf.toList.take b.p.toNat

/-- The blocks FINAL compresses: the valid bytes, 0x80, the zero bytes, the length (42_padding_parsing.md rules R144,
R145). -/
def Block.finalTail (b : Block) : List Byte :=
  b.valid ++ [0x80#8] ++ List.replicate ((55 - (b.p.toNat : Int)) % 64).toNat 0x00#8 ++ lengthBytes b.l

/-- Two blocks agree on every specified field: the unspecified ones are BUF at and above P, H outside ABSORB and DONE,
and the working registers (93_implementation_defined.md U1, U2; 10_state.md rules R25, R35, R46). -/
structure Block.Agree (b c : Block) : Prop where
  p : b.p = c.p
  l : b.l = c.l
  ovf : b.ovf = c.ovf
  state : b.state = c.state
  busy : b.busy = c.busy
  pend : b.pend = c.pend
  rej : b.rej = c.rej
  errcode : b.errcode = c.errcode
  errval : b.errval = c.errval
  data : b.data = c.data
  /-- Only the valid bytes of the buffer matter (rule R25). -/
  buf : ∀ i, i < b.p.toNat → b.buf[i]? = c.buf[i]?
  /-- The hash state matters while a hash is in progress and while it is the digest (rules R24, R44). -/
  h : b.state = .absorb ∨ b.state = .done → b.h = c.h

/-- Two machines agree: their blocks do, and their hosts, schedules and answers are the same. -/
structure State.Agree (s t : State) : Prop where
  blk : s.blk.Agree t.blk
  host : s.host = t.host
  sched : s.sched = t.sched
  replies : s.replies = t.replies

/-- A hash run has ended: STATUS reads BUSY = 0 and STATE DONE or ERROR (70_reset_and_hazards.md rule R240). -/
def Block.HashEnded (b : Block) : Prop := b.busy = false ∧ (b.state = .done ∨ b.state = .error)

/-- The end state of `HASH "t"` (44_digest.md rule R191) as the window shows it, for the code points `cs`. -/
def Block.ShowsResult (b : Block) (cs : List Word) : Prop :=
  match hashText cs with
  | .encodingError c =>
    b.state = .error ∧ b.errcode = 1#4 ∧ b.readReg .errval = c ∧ b.rej = true ∧ ∀ j, b.readReg (.digest j) = 0#32
  | .messageTooLarge =>
    b.state = .error ∧ b.errcode = 2#4 ∧ b.readReg .errval = 0#32 ∧ b.ovf = true ∧ b.rej = false ∧
      ∀ j, b.readReg (.digest j) = 0#32
  | .digest d =>
    b.state = .done ∧ b.errcode = 0#4 ∧ b.rej = false ∧
      (b.readReg .lenHi ++ b.readReg .lenLo) = BitVec.ofNat 64 (8 * (messageOf cs).length) ∧
      ∀ j : Fin 8, b.readReg (.digest j) = d[j]

end Sys2Proof.Machine
end

