-- ==== Sys2Proof/Certificates/Slice0/Obligations.lean ====
section
/-! DEFINITION. The statements for the provers: what the numbered rules of spec/ say the commands, the host's accesses,
the engine and the whole machine do. -/

open Sys2Proof Sys2Proof.Machine

/-! Encoding. -/

/-- Over all 2^32 words: a word selects a command exactly when it is that command's word, and the four words are 0 to
3 (30_encoding.md rule R72). -/
def Obligations.OneWordPerCommand : Prop :=
  (∀ (v : Word) (i : Instr), decode v = .command i ↔ v = encode i) ∧
    encode .nop = 0#32 ∧ encode .init = 1#32 ∧ encode .pushCp = 2#32 ∧ encode .final = 3#32

/-- Decoding is total, field by field, and an illegal word is rejected at acceptance (30_encoding.md rule R73). -/
def Obligations.DecodeByFields : Prop :=
  ∀ v : Word,
    (v.extractLsb 31 4 ≠ 0#28 → decode v = .illegal .reservedBits) ∧
    (v.extractLsb 31 4 = 0#28 → v.extractLsb 3 0 = 0#4 → decode v = .command .nop) ∧
    (v.extractLsb 31 4 = 0#28 → v.extractLsb 3 0 = 1#4 → decode v = .command .init) ∧
    (v.extractLsb 31 4 = 0#28 → v.extractLsb 3 0 = 2#4 → decode v = .command .pushCp) ∧
    (v.extractLsb 31 4 = 0#28 → v.extractLsb 3 0 = 3#4 → decode v = .command .final) ∧
    (v.extractLsb 31 4 = 0#28 → 4 ≤ (v.extractLsb 3 0).toNat → decode v = .illegal .reservedOpcode) ∧
    (∀ (b : Block) (why : IllegalWord), decode v = .illegal why → b.accept v = { b with rej := true })

/-- A sanity check on written-out words: the four rows of the opcode table, a reserved opcode, and reserved bits
(30_encoding.md rules R72, R74, R75). -/
def Obligations.WrittenOutWords : Prop :=
  decode 0b00000000000000000000000000000000#32 = .command .nop ∧
    decode 0b00000000000000000000000000000001#32 = .command .init ∧
    decode 0b00000000000000000000000000000010#32 = .command .pushCp ∧
    decode 0b00000000000000000000000000000011#32 = .command .final ∧
    decode 0b00000000000000000000000000000100#32 = .illegal .reservedOpcode ∧
    decode 0b10000000000000000000000000000011#32 = .illegal .reservedBits

/-! Acceptance. -/

/-- Whether a command word is accepted, row by row, and what acceptance and rejection do (40_commands.md rules R91,
R92). -/
def Obligations.AcceptanceTable : Prop :=
  (∀ (b : Block) (i : Instr),
    b.accept (encode i) =
      if b.busy = false ∧ (i = .nop ∨ i = .init ∨ b.state = .absorb) then
        { b with pend := some { op := i, operand := b.data }, busy := true }
      else { b with rej := true }) ∧
  (∀ (b : Block) (v : Word), 3 < v.toNat → b.accept v = { b with rej := true })

/-- Between acceptance and completion every register reads as before the command, but for STATUS.BUSY = 1
(40_commands.md rule R90). -/
def Obligations.InFlightViewIsTheOldOne : Prop :=
  ∀ (b : Block) (i : Instr), b.busy = false → (i = .nop ∨ i = .init ∨ b.state = .absorb) →
    (∀ r, r ≠ Reg.status → (b.accept (encode i)).readReg r = b.readReg r) ∧
      (b.accept (encode i)).readReg .status = (b.readReg .status ||| 1#32) ∧
      (b.readReg .status).getLsbD 0 = false

/-- While a command is in flight the host's turn changes nothing of the block but DATA and REJ, and it never clears REJ:
the operand and the command are safe from it (70_reset_and_hazards.md rules R233, R234; 10_state.md rule R30). -/
def Obligations.HostCannotDisturbTheCommandInFlight : Prop :=
  ∀ s t : State, s.turn = .host → s.blk.busy = true → step s = .next t →
    ∃ d r, t.blk = { s.blk with data := d, rej := r } ∧ (s.blk.rej = true → r = true)

/-! The commands at their completion. -/

/-- NOP: accepted in every state when BUSY = 0, rejected when BUSY = 1, and its completion changes nothing but BUSY and
PEND (40_commands.md rule R100). That the completion keeps the working registers too, which 10_state.md rule R22 leaves
unspecified between completions, is the model's choice (log entry 1). -/
def Obligations.NopHasNoEffect : Prop :=
  (∀ s : State, exec .nop s = .next { s with blk := { s.blk with busy := false, pend := none } }) ∧
    ∀ b : Block, b.accept 0x00000000#32 =
      if b.busy then { b with rej := true }
      else { b with pend := some { op := .nop, operand := b.data }, busy := true }

/-- INIT: every field it writes and no other, its acceptance, that twice is once, and what STATUS, the length and the
digest read afterwards (40_commands.md rule R101; the values of IV are another statement's). That it keeps the working
registers too, which 10_state.md rule R22 leaves unspecified between completions, is the model's choice (log entry 1). -/
def Obligations.InitStartsAHash : Prop :=
  (∀ s : State, exec .init s = .next
    { s with
      blk :=
        { s.blk with
          h := iv
          p := 0#6, l := 0#64, ovf := false, errcode := 0#4, errval := 0#32, rej := false, state := .absorb,
          busy := false, pend := none } }) ∧
  (∀ b : Block, b.accept 0x00000001#32 =
    if b.busy then { b with rej := true }
    else { b with pend := some { op := .init, operand := b.data }, busy := true }) ∧
  ∀ s t : State, exec .init s = .next t →
    exec .init t = .next t ∧ t.blk.regRead 0x08#6 = 0x00000002#32 ∧ t.blk.regRead 0x10#6 = 0#32 ∧
      t.blk.regRead 0x14#6 = 0#32 ∧ ∀ j : Fin 8, t.blk.regRead (offDigest j) = 0#32

/-- Independence of hashes: after INIT any two machines with the same DATA and the same host agree on every
specified field (40_commands.md rule R115). The fields left out of the last equality are those 10_state.md
rules R22, R25 and R35 leave unspecified, and the model's own counter (log entry 1). -/
def Obligations.InitForgetsTheState : Prop :=
  ∀ s t : State, s.blk.data = t.blk.data → s.host = t.host → s.sched = t.sched → s.replies = t.replies →
    ∃ s' t', exec .init s = .next s' ∧ exec .init t = .next t' ∧ s'.Agree t' ∧
      s'.blk = { t'.blk with buf := s'.blk.buf, working := s'.blk.working, compressions := s'.blk.compressions }

/-- The error entry: STATE, ERRCODE and ERRVAL are written (and BUSY, PEND cleared by the completion), no other state
changes; for both errors the block raises (60_exceptions.md rule R203). That it keeps the working registers too, which
are not in that rule's list and which 10_state.md rule R22 leaves unspecified, is the model's choice (log entry 1). -/
def Obligations.ErrorEntryWritesOnlyTheDetail : Prop :=
  (∀ (s : State) (x : Word), s.blk.pend = some ⟨.pushCp, x⟩ → 0x1FFFFF < x.toNat →
    exec .pushCp s = .next
      { s with blk := { s.blk with state := .error, errcode := 1#4, errval := x, busy := false, pend := none } }) ∧
  ∀ s : State, s.blk.ovf = true →
    exec .final s = .next
      { s with blk := { s.blk with state := .error, errcode := 2#4, errval := 0#32, busy := false, pend := none } }

/-- PUSH_CP of an encodable code point completes: the length counter and its overflow, P, every byte of the buffer, and
the hash state, which is compressed exactly when the block fills (40_commands.md rules R102, R103;
42_padding_parsing.md rules R140, R141). What the bytes at and above the new P hold, which 10_state.md rule R25 calls
unspecified, is the model's choice (log entry 3). -/
def Obligations.PushCpAbsorbsTheUnit : Prop :=
  ∀ (s : State) (x : Word), s.blk.pend = some ⟨.pushCp, x⟩ → x.toNat ≤ 0x1FFFFF →
    ∃ t, exec .pushCp s = .next t ∧
      t.blk.l = s.blk.l + BitVec.ofNat 64 (8 * (utf8Bytes x).length) ∧
      t.blk.ovf = (s.blk.ovf || decide (2 ^ 64 ≤ s.blk.l.toNat + 8 * (utf8Bytes x).length)) ∧
      t.blk.p.toNat = (s.blk.p.toNat + (utf8Bytes x).length) % 64 ∧
      (∀ k, k < (utf8Bytes x).length → t.blk.buf[(s.blk.p.toNat + k) % 64]? = (utf8Bytes x)[k]?) ∧
      (∀ a, (∀ k, k < (utf8Bytes x).length → a ≠ (s.blk.p.toNat + k) % 64) → t.blk.buf[a]? = s.blk.buf[a]?) ∧
      t.blk.h =
        (if s.blk.p.toNat + (utf8Bytes x).length < 64 then s.blk.h
          else compress s.blk.h (blockWords fun i => (s.blk.valid ++ utf8Bytes x).getD i 0#8)) ∧
      t.blk.compressions =
        s.blk.compressions + (if s.blk.p.toNat + (utf8Bytes x).length < 64 then 0 else 1)

/-- The frame of PUSH_CP of an encodable code point: the fields it does not write (40_commands.md rule R102). That the
working registers stay as they are where no block fills is the model's choice (log entry 1). -/
def Obligations.PushCpFrame : Prop :=
  ∀ (s t : State) (x : Word), s.blk.pend = some ⟨.pushCp, x⟩ → x.toNat ≤ 0x1FFFFF → exec .pushCp s = .next t →
    t.blk.state = s.blk.state ∧ t.blk.rej = s.blk.rej ∧ t.blk.errcode = s.blk.errcode ∧
      t.blk.errval = s.blk.errval ∧ t.blk.data = s.blk.data ∧ t.blk.busy = false ∧ t.blk.pend = none ∧
      (s.blk.p.toNat + (utf8Bytes x).length < 64 → t.blk.working = s.blk.working) ∧
      t.host = s.host ∧ t.sched = s.sched ∧ t.replies = s.replies

/-- FINAL below the limit completes: DONE, P = 0, the hash state is the compression of the padded tail's blocks, the
buffer holds the last of them, and nothing else that is specified changes (40_commands.md rule R104,
42_padding_parsing.md rule R145). The clause on the buffer, every byte of which 10_state.md rule R25 calls unspecified once
P is 0, is the model's choice (log entry 3). -/
def Obligations.FinalPadsAndFinishes : Prop :=
  ∀ s : State, s.blk.ovf = false →
    ∃ t, exec .final s = .next t ∧
      t.blk.state = .done ∧ t.blk.p = 0#6 ∧
      s.blk.finalTail.length = (if s.blk.p.toNat ≤ 55 then 64 else 128) ∧
      t.blk.h = compressBlocks s.blk.h (parseBlocks s.blk.finalTail) ∧
      (∀ a, a < 64 → t.blk.buf[a]? = s.blk.finalTail[s.blk.finalTail.length - 64 + a]?) ∧
      t.blk.compressions = s.blk.compressions + (if s.blk.p.toNat ≤ 55 then 1 else 2) ∧
      t.blk.l = s.blk.l ∧ t.blk.ovf = false ∧ t.blk.rej = s.blk.rej ∧ t.blk.errcode = s.blk.errcode ∧
      t.blk.errval = s.blk.errval ∧ t.blk.data = s.blk.data ∧ t.blk.busy = false ∧ t.blk.pend = none ∧
      t.host = s.host ∧ t.sched = s.sched ∧ t.replies = s.replies

/-- No command touches DATA, the host, the schedule or the answers, and every completion clears BUSY and PEND
(40_commands.md rule R93, 10_state.md rule R34). Every state includes those with PEND none, where that rule gives no
completion and exec's answer is the model's choice (log entry 9). -/
def Obligations.EveryCommandFrame : Prop :=
  ∀ (i : Instr) (s : State), ∃ t, exec i s = .next t ∧
    t.blk.data = s.blk.data ∧ t.blk.busy = false ∧ t.blk.pend = none ∧
    t.host = s.host ∧ t.sched = s.sched ∧ t.replies = s.replies ∧
    (i ≠ .init → t.blk.rej = s.blk.rej ∧ (s.blk.ovf = true → t.blk.ovf = true))

/-! The step of the engine. -/

/-- Completion is enabled exactly when BUSY = 1, and it runs the command in PEND with its effect, clearing BUSY and
PEND, in one step (40_commands.md rule R93). That the engine's turn with BUSY = 0 takes only the turn out is the model's
choice (log entry 7), and so is that NOP's effect keeps the working registers (log entry 1). -/
def Obligations.CompletionRunsTheLatchedCommand : Prop :=
  (∀ (s : State) (i : Instr) (x : Word), s.turn = .engine → s.blk.busy = true → s.blk.pend = some ⟨i, x⟩ →
    step s = exec i { s with sched := s.sched.tail } ∧
      exec i s = .next
        { s with
          blk :=
            { (match i with
              | .nop => s.blk
              | .init => s.blk.initEffect
              | .pushCp => s.blk.pushEffect x
              | .final => s.blk.finalEffect : Block) with
              busy := false, pend := none } }) ∧
  ∀ s : State, s.turn = .engine → s.blk.busy = false → step s = .next { s with sched := s.sched.tail }

/-- A step runs the decoded command: with a legal command word placed where the engine fetches, the very next step is
that command's meaning (40_commands.md rule R93; log entry 8 on the placing). -/
def Obligations.StepRunsTheDecodedCommand : Prop :=
  ∀ (s : State) (w : Nat) (i : Instr), decodeTableWord 32 w = some i →
    step (s.withFetchWord 32 w) =
      exec i { s with blk := { s.blk with pend := some { op := i, operand := s.blk.data }, busy := true } }

/-- A command's whole life, under the empty schedule: the host's write of a legal word latches it, and the step
after it runs it with the operand latched then (40_commands.md rules R90, R91, R93). That the engine moves right
after the acceptance, so that two steps are enough, is the model's choice for the empty schedule (log entry 6):
rule R94 leaves the delay open, and EveryAcceptedCommandCompletes is the statement for every schedule. -/
def Obligations.WrittenCommandIsCompleted : Prop :=
  ∀ (s : State) (v : Word) (i : Instr) (rest : List HostOp), s.sched = [] → s.blk.busy = false →
    s.host = .wr 0x00#6 v :: rest → decode v = .command i → legalIn i s.blk.state = true →
    run 2 s =
      exec i
        { s with
          blk := { s.blk with pend := some { op := i, operand := s.blk.data }, busy := true }
          host := rest, replies := .written :: s.replies }

/-- Every accepted command completes, and nothing but reset cancels it: whatever the schedule without a reset, after
some steps the engine completes exactly the latched command with the latched operand (40_commands.md rule R94).
The schedule is the model's way of leaving LATENCY open, and the bound by its length rests on the engine's
moving where it is empty (log entry 6). -/
def Obligations.EveryAcceptedCommandCompletes : Prop :=
  ∀ (s : State) (i : Instr) (x : Word), s.blk.busy = true → s.blk.pend = some ⟨i, x⟩ → Turn.reset ∉ s.sched →
    ∃ n u t, n ≤ s.sched.length ∧ run n s = .next u ∧ u.blk.pend = some ⟨i, x⟩ ∧
      Completes u i ∧ step u = .next t ∧ t.blk.busy = false ∧ t.blk.pend = none

/-! The register window. -/

/-- What every offset of the window reads as, and that an admitted read changes no state of the block (40_commands.md
rule R110). -/
def Obligations.RegReadTable : Prop :=
  (∀ (s : State) (off : BitVec 6) (rest : List HostOp), s.turn = .host → s.host = .rd off :: rest →
    off.extractLsb 1 0 = 0#2 →
    ∃ t, step s = .next t ∧ t.blk = s.blk ∧ t.replies = .value (s.blk.regRead off) :: s.replies) ∧
  ∀ b : Block,
    b.regRead 0x00#6 = 0#32 ∧
    b.regRead 0x04#6 = b.data ∧
    b.regRead 0x08#6 =
      (BitVec.ofBool b.ovf ++ b.errcode ++ BitVec.ofBool b.rej ++ b.state.code ++ BitVec.ofBool b.busy).setWidth 32 ∧
    b.regRead 0x0C#6 = b.errval ∧
    b.regRead 0x10#6 = b.l.extractLsb 31 0 ∧
    b.regRead 0x14#6 = b.l.extractLsb 63 32 ∧
    b.regRead 0x18#6 = 0#32 ∧ b.regRead 0x1C#6 = 0#32 ∧
    ∀ j : Fin 8, b.regRead (BitVec.ofNat 6 (0x20 + 4 * j.val)) = if b.state = .done then b.h[j] else 0#32

/-- The fields of STATUS by bit position, the encodings of STATE, and that a write to it is ignored (10_state.md rule
R41). -/
def Obligations.StatusFields : Prop :=
  (∀ b : Block,
    (b.regRead 0x08#6).getLsbD 0 = b.busy ∧
    (b.regRead 0x08#6).extractLsb 2 1 =
      (match b.state with
        | .uninit => 0#2
        | .absorb => 1#2
        | .done => 2#2
        | .error => 3#2) ∧
    (b.regRead 0x08#6).getLsbD 3 = b.rej ∧
    (b.regRead 0x08#6).extractLsb 7 4 = b.errcode ∧
    (b.regRead 0x08#6).getLsbD 8 = b.ovf ∧
    (b.regRead 0x08#6).extractLsb 31 9 = 0#23 ∧
    ∀ v, b.regWrite 0x08#6 v = b) ∧
  State.reset.blk.regRead 0x08#6 = 0#32

/-- What a write to every aligned offset does: CMD accepts or rejects, DATA is set, every other write is ignored and does
not set REJ (40_commands.md rule R111). -/
def Obligations.RegWriteTable : Prop :=
  ∀ (b : Block) (v : Word),
    b.regWrite 0x00#6 v = b.accept v ∧
    b.regWrite 0x04#6 v = { b with data := v } ∧
    ∀ off : BitVec 6, off.extractLsb 1 0 = 0#2 → off ≠ 0x00#6 → off ≠ 0x04#6 → b.regWrite off v = b

/-- The digest registers show the hash state only in DONE, and a write to one is ignored (10_state.md rule R44). -/
def Obligations.DigestOnlyWhenDone : Prop :=
  ∀ (b : Block) (j : Fin 8),
    (b.state = .done → b.regRead (BitVec.ofNat 6 (0x20 + 4 * j.val)) = b.h[j]) ∧
    (b.state ≠ .done → b.regRead (BitVec.ofNat 6 (0x20 + 4 * j.val)) = 0#32) ∧
    ∀ v, b.regWrite (BitVec.ofNat 6 (0x20 + 4 * j.val)) v = b

/-- The addresses of the window and the offset each selects; BASE is a multiple of 64; an address outside is not decoded
and changes nothing in the block (20_memory.md rule R51). That such an access is answered notDecoded and that the host
goes on with its next access after it is the model's choice (log entry 15). -/
def Obligations.WindowDecoding : Prop :=
  Config.base % 64 = 0 ∧
  (∀ off : BitVec 6, windowOffset Config.base (Config.base + off.toNat) = some off) ∧
  (∀ addr, addr < Config.base ∨ Config.base + 0x3F < addr → windowOffset Config.base addr = none) ∧
  ∀ (s : State) (a : BusAccess) (rest : List HostOp), s.turn = .host → s.host = .bus a :: rest →
    (a.addr < Config.base ∨ Config.base + 0x3F < a.addr) →
    step s = .next { s with host := rest, sched := s.sched.tail, replies := .notDecoded :: s.replies }

/-- An access of another width than 32 bits or at an offset that is not a multiple of 4 changes no state of the block
and is answered by the platform, never with a register value (20_memory.md rule R57). That the host goes on with its next
access after such an answer is the model's choice (log entry 5). -/
def Obligations.UnadmittedAccessChangesNothing : Prop :=
  ∀ (s : State) (a : BusAccess) (off : BitVec 6) (rest : List HostOp), s.turn = .host →
    s.host = .bus a :: rest → a.addr = Config.base + off.toNat → (a.bytes ≠ 4 ∨ off.extractLsb 1 0 ≠ 0#2) →
    step s = .next
      { s with
        host := rest, sched := s.sched.tail
        replies := .busError (Config.busErrorResponse s.replies.length) :: s.replies }

/-- An admitted access on the bus, read or write, acts as RegRead or RegWrite of its offset, in one step, and a read
changes no state of the block (20_memory.md rules R58, R59, R62; 40_commands.md rules R110, R111). -/
def Obligations.AdmittedBusAccess : Prop :=
  ∀ (s : State) (off : BitVec 6) (rest : List HostOp), s.turn = .host → off.extractLsb 1 0 = 0#2 →
    (s.host = .bus ⟨Config.base + off.toNat, 4, .read⟩ :: rest ∨ s.host = .rd off :: rest →
      step s = .next
        { s with host := rest, sched := s.sched.tail, replies := .value (s.blk.regRead off) :: s.replies }) ∧
    ∀ v, s.host = .bus ⟨Config.base + off.toNat, 4, .write v⟩ :: rest ∨ s.host = .wr off v :: rest →
      step s = .next
        { s with
          blk := s.blk.regWrite off v
          host := rest, sched := s.sched.tail, replies := .written :: s.replies }

/-- `poll` reads STATUS again and again until bit 0 of the value read is 0, and changes nothing in the block
(30_encoding.md rule R78). -/
def Obligations.PollWaitsForBusy : Prop :=
  ∀ (s : State) (rest : List HostOp), s.turn = .host → s.host = .poll :: rest →
    step s = .next
      { s with
        host := if s.blk.busy then .poll :: rest else rest
        sched := s.sched.tail, replies := .value (s.blk.regRead 0x08#6) :: s.replies }

/-! Reset. -/

/-- The specified state after reset, and that every register of the window reads 0 (10_state.md rule R46). Nothing
is said of the fields rule R46 leaves unspecified (log entry 2). -/
def Obligations.ResetState : Prop :=
  State.reset.blk.state = .uninit ∧ State.reset.blk.busy = false ∧ State.reset.blk.pend = none ∧
    State.reset.blk.rej = false ∧ State.reset.blk.errcode = 0#4 ∧ State.reset.blk.errval = 0#32 ∧
    State.reset.blk.ovf = false ∧ State.reset.blk.l = 0#64 ∧ State.reset.blk.p = 0#6 ∧
    State.reset.blk.data = 0#32 ∧ ∀ r, State.reset.blk.readReg r = 0#32

/-- A reset at any moment, with a command in flight or not, leaves the specified reset state: nothing is in flight
and every register reads 0 (70_reset_and_hazards.md rules R230, R231). Nothing is said of the fields 10_state.md
rule R46 leaves unspecified (log entry 2). That the host's program and the answers stay is the model's choice
(log entry 11). -/
def Obligations.ResetAbandonsTheCommand : Prop :=
  ∀ s : State, s.turn = .reset →
    ∃ t, step s = .next t ∧
      t.blk.state = .uninit ∧ t.blk.busy = false ∧ t.blk.pend = none ∧ t.blk.rej = false ∧
      t.blk.errcode = 0#4 ∧ t.blk.errval = 0#32 ∧ t.blk.ovf = false ∧ t.blk.l = 0#64 ∧ t.blk.p = 0#6 ∧
      t.blk.data = 0#32 ∧ (∀ r, t.blk.readReg r = 0#32) ∧ t.host = s.host ∧ t.replies = s.replies

/-! Invariants and whole-machine rules. -/

/-- The invariant holds at reset (10_state.md rule R37). What the invariant adds to that rule is the model's (log
entry 17). -/
def Obligations.InvariantAtReset : Prop := State.reset.blk.Inv

/-- Every step of every agent keeps the invariant, from every state that meets it: rule R37 (a) to (f), a latched
command is legal, the error detail is one the block produces, a digest is never that of too long a message
(10_state.md rule R37). What the invariant adds to that rule's (a) to (f) is the model's (log entry 17). -/
def Obligations.EveryStepKeepsTheInvariant : Prop :=
  ∀ s t : State, s.blk.Inv → step s = .next t → t.blk.Inv

/-- Every state a run from reset reaches, whatever accesses the host makes and whatever the schedule, meets the
invariants (a) to (f) (10_state.md rule R37). -/
def Obligations.ReachableStatesMeetTheInvariants : Prop :=
  ∀ (n : Nat) (host : List HostOp) (sched : List Turn) (t : State),
    run n { State.reset with host := host, sched := sched } = .next t → t.blk.Rule37

/-- From a state that meets the invariant a step is never a fault or a refusal (40_commands.md rules R93, R94). That an
idle turn and an access the block does not admit or decode are such steps too is the model's choice (log entries 5, 7,
15). -/
def Obligations.NoStepStopsUnderTheInvariant : Prop := ∀ s : State, s.blk.Inv → SafeStep s

/-- ERROR is left only by the completion of INIT, which clears the error detail, or by reset; until then the detail stays
and no error can occur (60_exceptions.md rules R205, R206). -/
def Obligations.ErrorIsLeftOnlyByInitOrReset : Prop :=
  ∀ s t : State, s.blk.Inv → s.blk.state = .error → step s = .next t →
    (¬ Completes s .init ∧ s.turn ≠ .reset ∧ t.blk.state = .error ∧ t.blk.errcode = s.blk.errcode ∧
      t.blk.errval = s.blk.errval) ∨
    (Completes s .init ∧ t.blk.state = .absorb ∧ t.blk.errcode = 0#4 ∧ t.blk.errval = 0#32) ∨
    (s.turn = .reset ∧ t.blk.state = .uninit ∧ t.blk.errcode = 0#4 ∧ t.blk.errval = 0#32)

/-- The digest stays readable, unchanged, until the next INIT or reset (44_digest.md rule R190). -/
def Obligations.DigestStaysUntilInitOrReset : Prop :=
  ∀ s t : State, s.blk.Inv → s.blk.state = .done → step s = .next t →
    (t.blk.state = .done ∧ ∀ j : Fin 8, t.blk.readReg (.digest j) = s.blk.readReg (.digest j)) ∨
      Completes s .init ∨ s.turn = .reset

/-- Who writes the flags: STATE changes only at a completion of INIT, FINAL or a PUSH_CP in error, or at reset; ERRCODE
and ERRVAL likewise; REJ is set only by the host's turn and cleared only by INIT or reset; OVF is set only by PUSH_CP
and cleared only by INIT or reset (10_state.md rules R27, R31, R32, R47). -/
def Obligations.WritersOfTheFlags : Prop :=
  ∀ s t : State, step s = .next t → s.turn ≠ .reset → ¬ Completes s .init →
    (t.blk.state ≠ s.blk.state ∨ t.blk.errcode ≠ s.blk.errcode ∨ t.blk.errval ≠ s.blk.errval →
      Completes s .final ∨ (Completes s .pushCp ∧ 0x1FFFFF < s.blk.operand.toNat)) ∧
    (s.blk.rej = true → t.blk.rej = true) ∧
    (t.blk.rej ≠ s.blk.rej → s.turn = .host) ∧
    (s.blk.ovf = true → t.blk.ovf = true) ∧
    (t.blk.ovf ≠ s.blk.ovf → Completes s .pushCp)

/-- Who writes DATA, H, L and BUF: DATA only a host turn or reset; H only INIT, a compression or reset; L only INIT,
PUSH_CP or reset; BUF only PUSH_CP, FINAL or reset (10_state.md rules R24, R25, R26, R34). -/
def Obligations.WritersOfTheDataRegisters : Prop :=
  ∀ s t : State, step s = .next t → s.turn ≠ .reset →
    (t.blk.data ≠ s.blk.data → s.turn = .host) ∧
    (t.blk.h ≠ s.blk.h → Completes s .init ∨ s.blk.compressions < t.blk.compressions) ∧
    (t.blk.l ≠ s.blk.l → Completes s .init ∨ Completes s .pushCp) ∧
    (t.blk.buf ≠ s.blk.buf → Completes s .pushCp ∨ Completes s .final) ∧
    (s.blk.compressions < t.blk.compressions → Completes s .pushCp ∨ Completes s .final)

/-- The unspecified fields are unobservable: two machines that agree on the specified ones and have the same host go on
agreeing at every step, answers to the host included (10_state.md rules R25, R35, R46; 93_implementation_defined.md
U1, U2). -/
def Obligations.UnspecifiedFieldsAreNeverObserved : Prop :=
  ∀ s t s' : State, s.Agree t → s.blk.PendLegal → step s = .next s' →
    ∃ t', step t = .next t' ∧ s'.Agree t' ∧ ∀ r, s'.blk.readReg r = t'.blk.readReg r

/-! The encoder. -/

/-- The length classes, the pattern of the first byte in each, and that there is no code point but the out-of-range ones
without an encoding (41_utf8_encoder.md rules R122, R123, R126). -/
def Obligations.EncoderLengthClasses : Prop :=
  ∀ c : Word,
    (utf8Encode c = none ↔ 0x1FFFFF < c.toNat) ∧
    ∀ bs, utf8Encode c = some bs →
      (c.toNat ≤ 0x7F → bs.length = 1 ∧ (bs.getD 0 0#8).extractLsb 7 7 = 0b0#1) ∧
      (0x80 ≤ c.toNat → c.toNat ≤ 0x7FF → bs.length = 2 ∧ (bs.getD 0 0#8).extractLsb 7 5 = 0b110#3) ∧
      (0x800 ≤ c.toNat → c.toNat ≤ 0xFFFF → bs.length = 3 ∧ (bs.getD 0 0#8).extractLsb 7 4 = 0b1110#4) ∧
      (0x10000 ≤ c.toNat → bs.length = 4 ∧ (bs.getD 0 0#8).extractLsb 7 3 = 0b11110#5)

/-- Every byte after the first begins with the bits 10, and the first byte has no leading 1 bit in a 1-byte unit and
exactly n leading 1 bits and then a 0 in an n-byte unit, n ≥ 2 (41_utf8_encoder.md rule R125). -/
def Obligations.EncoderUnitInvariants : Prop :=
  ∀ (c : Word) (bs : List Byte), utf8Encode c = some bs →
    (∀ x ∈ bs.tail, x.extractLsb 7 6 = 0b10#2) ∧
    (bs.length = 1 → (bs.getD 0 0#8).getMsbD 0 = false) ∧
    (2 ≤ bs.length →
      (∀ k, k < bs.length → (bs.getD 0 0#8).getMsbD k = true) ∧ (bs.getD 0 0#8).getMsbD bs.length = false)

/-- The payload bits of the unit, put together most significant first, are the code point again (41_utf8_encoder.md
rule R121). That rule marks the slices of the 3- and 4-byte forms as general knowledge (log entry 13). -/
def Obligations.EncoderPayload : Prop :=
  ∀ (c : Word) (bs : List Byte), utf8Encode c = some bs →
    (bs.length = 1 → c = ((bs.getD 0 0#8).extractLsb 6 0).setWidth 32) ∧
    (bs.length = 2 → c = ((bs.getD 0 0#8).extractLsb 4 0 ++ (bs.getD 1 0#8).extractLsb 5 0).setWidth 32) ∧
    (bs.length = 3 →
      c = ((bs.getD 0 0#8).extractLsb 3 0 ++ (bs.getD 1 0#8).extractLsb 5 0 ++
        (bs.getD 2 0#8).extractLsb 5 0).setWidth 32) ∧
    (bs.length = 4 →
      c = ((bs.getD 0 0#8).extractLsb 2 0 ++ (bs.getD 1 0#8).extractLsb 5 0 ++
        (bs.getD 2 0#8).extractLsb 5 0 ++ (bs.getD 3 0#8).extractLsb 5 0).setWidth 32)

/-- The encoder is injective and its units are prefix-free: the first byte fixes the length and is no continuation byte,
and the message determines the sequence of pushed code points (41_utf8_encoder.md rule R127). -/
def Obligations.MessageDeterminesTheCodePoints : Prop :=
  (∀ (c d : Word) (bs ds : List Byte), utf8Encode c = some bs → utf8Encode d = some ds →
    (bs.getD 0 0#8).extractLsb 7 6 ≠ 0b10#2 ∧ (bs.getD 0 0#8 = ds.getD 0 0#8 → bs.length = ds.length) ∧
      (bs <+: ds → c = d)) ∧
  ∀ cs ds : List Word, (∀ c ∈ cs, c.toNat ≤ 0x1FFFFF) → (∀ d ∈ ds, d.toNat ≤ 0x1FFFFF) →
    messageOf cs = messageOf ds → cs = ds

/-! Padding and parsing. -/

/-- The padded bit string: the least number of 0 bits that makes the length 448 modulo 512, and a whole number of
512-bit blocks with the length field (42_padding_parsing.md rule R143). -/
def Obligations.PaddingIsMinimal : Prop :=
  ∀ m : List Bool, ∃ k,
    padBits m = m ++ [true] ++ List.replicate k false ++ lengthBits m.length ∧
    (m.length + 1 + k) % 512 = 448 ∧ (∀ j, j < k → (m.length + 1 + j) % 512 ≠ 448) ∧ k ≤ 511 ∧
    (padBits m).length = m.length + 1 + k + 64 ∧ (padBits m).length % 512 = 0 ∧
    ∀ i, i < 64 → (lengthBits m.length)[i]? = some ((BitVec.ofNat 64 m.length).getLsbD (63 - i))

/-- For a message of whole bytes the bit padding is a whole number of bytes: 0x80, `(55 - m) mod 64` zero bytes, the
eight length bytes, and the padded message has m + 1 + z + 8 bytes, a multiple of 64 (42_padding_parsing.md rule
R144). -/
def Obligations.BytePaddingIsBitPadding : Prop :=
  ∀ m : List Byte,
    bitsOf (padBytes m) = padBits (bitsOf m) ∧
      (padBytes m).length = m.length + 1 + ((55 - (m.length : Int)) % 64).toNat + 8 ∧ (padBytes m).length % 64 = 0

/-- The code points pushed since INIT are the message so far: the full blocks of it are compressed, the rest is in the
buffer, L and OVF hold its bit length (42_padding_parsing.md rules R140, R141; 41_utf8_encoder.md rule R128). -/
def Obligations.PushesAbsorbTheMessage : Prop :=
  ∀ (b : Block) (cs : List Word), (∀ c ∈ cs, c.toNat ≤ 0x1FFFFF) →
    let b' := cs.foldl (fun x c => x.pushEffect c) b.initEffect
    b'.h = compressBlocks iv (parseBlocks (messageOf cs)) ∧
      b'.valid = (messageOf cs).drop (64 * ((messageOf cs).length / 64)) ∧
      b'.l = BitVec.ofNat 64 (8 * (messageOf cs).length) ∧
      b'.ovf = decide (2 ^ 64 ≤ 8 * (messageOf cs).length) ∧
      b'.compressions = b.compressions + (messageOf cs).length / 64 ∧ b'.state = .absorb

/-- The block's incremental form gives the document's digest: after INIT, the pushes and FINAL, the hash state is the
compression, in order and from IV, of the blocks of the padded message, as many as rule R146 says, and the buffer is
empty (42_padding_parsing.md rules R146, R147, R148). And what those blocks are: word j of block i of a byte string is
its bytes 64i+4j to 64i+4j+3, the first in bits 31:24 (42_padding_parsing.md rule R142, 20_memory.md rule R54). -/
def Obligations.IncrementalFormIsTheDocuments : Prop :=
  (∀ (b : Block) (cs : List Word), (∀ c ∈ cs, c.toNat ≤ 0x1FFFFF) → 8 * (messageOf cs).length < 2 ^ 64 →
    let b' := (cs.foldl (fun x c => x.pushEffect c) b.initEffect).finalEffect
    b'.state = .done ∧ b'.p = 0#6 ∧
      b'.h = compressBlocks iv (parseBlocks (padBytes (messageOf cs))) ∧
      (parseBlocks (padBytes (messageOf cs))).length = ((messageOf cs).length + 8) / 64 + 1 ∧
      b'.compressions = b.compressions + ((messageOf cs).length + 8) / 64 + 1) ∧
  (∀ p : List Byte, (parseBlocks p).length = p.length / 64) ∧
  (∀ (p : List Byte) (i : Nat), i < p.length / 64 → ∃ m, (parseBlocks p)[i]? = some m ∧
    ∀ (j : Fin 16) (k : Nat), k < 4 → p[64 * i + 4 * j.val + k]? = some (m[j].extractLsb' (24 - 8 * k) 8)) ∧
  ∀ (f : Nat → Byte) (j : Fin 16) (k : Nat), k < 4 →
    ((blockWords f)[j]).extractLsb' (24 - 8 * k) 8 = f (4 * j.val + k)

/-- The result of `HASH "t"`: from any state that is not busy, under any schedule without a reset, the program ends with
BUSY = 0 in DONE or ERROR (70_reset_and_hazards.md rule R240), and then the window shows the document's result for the
code points: the first encoding error, the length error, or the digest; and the last nine values the host read are those
of STATUS and DIGEST0..7 in that end state (44_digest.md rules R191, R193). -/
def Obligations.HashProgramGivesTheDocumentsResult : Prop :=
  ∀ (s : State) (cs : List Word), s.blk.busy = false → s.host = pseudoHash cs → Turn.reset ∉ s.sched →
    ∃ n t, run n s = .next t ∧ t.host = [] ∧ t.blk.HashEnded ∧ t.blk.ShowsResult cs ∧
      t.replies.take 9 =
        [.value (t.blk.readReg (.digest 7)), .value (t.blk.readReg (.digest 6)), .value (t.blk.readReg (.digest 5)),
          .value (t.blk.readReg (.digest 4)), .value (t.blk.readReg (.digest 3)), .value (t.blk.readReg (.digest 2)),
          .value (t.blk.readReg (.digest 1)), .value (t.blk.readReg (.digest 0)), .value (t.blk.readReg .status)]

/-! The compression. -/

/-- IV and K are the first 32 bits of the fractional parts of the square roots of the first eight primes and of the cube
roots of the first sixty-four (43_compression.md rules R161, R162, which mark the values as general knowledge; log
entry 13): the integer part n and the word w of a root say that n * 2^32 + w is the floor of the root scaled by 2^32. -/
def Obligations.ConstantsAreRootFractions : Prop :=
  let primes := (List.range 312).filter Nat.Prime
  primes.length = 64 ∧ kTable.length = 64 ∧
  (∀ (j : Nat) (hj : j < 8), ∃ n p, primes[j]? = some p ∧
    (n * 2 ^ 32 + iv[j].toNat) ^ 2 ≤ p * 2 ^ 64 ∧ p * 2 ^ 64 < (n * 2 ^ 32 + iv[j].toNat + 1) ^ 2) ∧
  ∀ t, t < 64 → ∃ n p, primes[t]? = some p ∧
    (n * 2 ^ 32 + (kConst t).toNat) ^ 3 ≤ p * 2 ^ 96 ∧ p * 2 ^ 96 < (n * 2 ^ 32 + (kConst t).toNat + 1) ^ 3

/-- The rotation and the logical shift bit by bit, and with them σ0, σ1, Σ0, Σ1 (00_scope.md rule R10;
43_compression.md rules R163 to R166, R169). -/
def Obligations.WordFunctionsBitwise : Prop :=
  (∀ (x : Word) (n i : Nat), 1 ≤ n → n ≤ 31 → i < 32 → (rotr x n).getLsbD i = x.getLsbD ((i + n) % 32)) ∧
  ∀ (x : Word) (i : Nat), i < 32 →
    (sigma0 x).getLsbD i =
      ((x.getLsbD ((i + 7) % 32) ^^ x.getLsbD ((i + 18) % 32)) ^^ (decide (i + 3 < 32) && x.getLsbD (i + 3))) ∧
    (sigma1 x).getLsbD i =
      ((x.getLsbD ((i + 17) % 32) ^^ x.getLsbD ((i + 19) % 32)) ^^ (decide (i + 10 < 32) && x.getLsbD (i + 10))) ∧
    (bigSigma0 x).getLsbD i =
      ((x.getLsbD ((i + 2) % 32) ^^ x.getLsbD ((i + 13) % 32)) ^^ x.getLsbD ((i + 22) % 32)) ∧
    (bigSigma1 x).getLsbD i =
      ((x.getLsbD ((i + 6) % 32) ^^ x.getLsbD ((i + 11) % 32)) ^^ x.getLsbD ((i + 25) % 32))

/-- Ch selects: each result bit is the y bit where x is 1 and the z bit where x is 0 (43_compression.md rule R167). Maj
is the majority of the three bits (rule R168). -/
def Obligations.ChSelectsAndMajIsTheMajority : Prop :=
  ∀ (x y z : Word) (i : Nat), i < 32 →
    (ch x y z).getLsbD i = (if x.getLsbD i then y.getLsbD i else z.getLsbD i) ∧
    ((maj x y z).getLsbD i = true ↔
      2 ≤ (x.getLsbD i).toNat + (y.getLsbD i).toNat + (z.getLsbD i).toNat)

/-- The message schedule: 64 words, the first sixteen those of the block, each later one from the earlier ones
(43_compression.md rule R170). -/
def Obligations.ScheduleRecurrence : Prop :=
  ∀ m : Vector Word 16,
    (schedule m).length = 64 ∧
    (∀ t : Fin 16, (schedule m)[t.val]? = some m[t]) ∧
    ∀ t, 16 ≤ t → t ≤ 63 →
      (schedule m)[t]? = some
        (sigma1 ((schedule m).getD (t - 2) 0#32) + (schedule m).getD (t - 7) 0#32 +
          sigma0 ((schedule m).getD (t - 15) 0#32) + (schedule m).getD (t - 16) 0#32)

/-- The compression function: the working variables start as H, each of the 64 rounds in order computes T1 and T2 and
shifts, and the result is H plus the working variables (43_compression.md rules R171 to R174). -/
def Obligations.CompressIsTheSixtyFourRounds : Prop :=
  ∀ (h : Vector Word 8) (m : Vector Word 16), ∃ v : Nat → Vars,
    v 0 = { a := h[0], b := h[1], c := h[2], d := h[3], e := h[4], f := h[5], g := h[6], h := h[7] } ∧
    (∀ t, t < 64 →
      let t1 := (v t).h + bigSigma1 (v t).e + ch (v t).e (v t).f (v t).g + kConst t + (schedule m).getD t 0#32
      let t2 := bigSigma0 (v t).a + maj (v t).a (v t).b (v t).c
      v (t + 1) =
        { a := t1 + t2, b := (v t).a, c := (v t).b, d := (v t).c, e := (v t).d + t1, f := (v t).e, g := (v t).f,
          h := (v t).g }) ∧
    compress h m =
      #v[h[0] + (v 64).a, h[1] + (v 64).b, h[2] + (v 64).c, h[3] + (v 64).d, h[4] + (v 64).e, h[5] + (v 64).f,
        h[6] + (v 64).g, h[7] + (v 64).h]

/-- The host's hex rendering of the digest: 64 lowercase digits; digit 8j+k is that of bits 31-4k to 28-4k of word j, so
the words stand in order and the digits of a word from its most significant nibble down (44_digest.md rule R192, which
marks the order within a word as general knowledge; log entry 13); and no two digests have the same rendering. -/
def Obligations.HexRenderingIsFaithful : Prop :=
  (∀ d : Vector Word 8, (hexDigest d).length = 64 ∧
    (∀ x ∈ hexDigest d, x ∈ ['0', '1', '2', '3', '4', '5', '6', '7', '8', '9', 'a', 'b', 'c', 'd', 'e', 'f']) ∧
    ∀ (j : Fin 8) (k : Nat), k < 8 →
      (hexDigest d)[8 * j.val + k]? =
        ['0', '1', '2', '3', '4', '5', '6', '7', '8', '9', 'a', 'b', 'c', 'd', 'e', 'f'][
          (d[j].extractLsb' (28 - 4 * k) 4).toNat]?) ∧
  ∀ d e : Vector Word 8, hexDigest d = hexDigest e → d = e

/-! Several instances. -/

/-- Each instance steps as it does alone, and instances share no mutable state (60_exceptions.md rule R215; 20_memory.md
rule R51). Every step keeps the system well-formed, each instance in its window. A turn of instance k gives it the block
that `step` gives it alone, answers nothing and leaves every other instance as it was. An access in the window of instance
k acts on that instance at its offset, is answered by it, and leaves every other instance as it was. A turn of an instance
that is not there changes nothing. An access in no window changes no instance; that the step goes on and that the answer
recorded for it is notDecoded is the model's choice (log entry 15). -/
def Obligations.InstancesShareNothing : Prop :=
  ∀ (sys sys' : System) (ev : SystemEvent), sys.wf = true → sys.step ev = .next sys' →
    sys'.wf = true ∧ sys'.insts.map Placed.slot = sys.insts.map Placed.slot ∧
    (∀ (k : Nat) (t : Turn), ev = .turn k t →
      sys'.replies = sys.replies ∧
      (∀ j, j ≠ k → sys'.insts[j]? = sys.insts[j]?) ∧
      (sys.insts[k]? = none → sys' = sys) ∧
      ∀ q, sys.insts[k]? = some q →
        ∃ s, step (q.alone t) = .next s ∧ sys'.insts[k]? = some { q with blk := s.blk }) ∧
    (∀ (a : BusAccess) (k : Nat) (q : Placed) (off : BitVec 6), ev = .access a → sys.insts[k]? = some q →
      a.addr = Config.baseOf q.slot + off.toNat →
      sys'.insts[k]? = some { q with blk := q.blk.accessed off a.bytes a.kind } ∧
      sys'.replies = q.blk.replyTo off a.bytes a.kind sys.replies.length :: sys.replies ∧
      ∀ j, j ≠ k → sys'.insts[j]? = sys.insts[j]?) ∧
    ∀ a : BusAccess, ev = .access a →
      (∀ q ∈ sys.insts, a.addr < Config.baseOf q.slot ∨ Config.baseOf q.slot + 0x3F < a.addr) →
      sys'.insts = sys.insts ∧ sys'.replies = .notDecoded :: sys.replies

/-- A system of any positive number of instances in different windows starts with each instance in the reset state: every
specified field at its reset value, every register reading 0 (60_exceptions.md rule R215; 10_state.md rule R46; nothing is
said of the fields that rule leaves unspecified, log entry 2). From there every sequence of accesses and turns runs without
a fault or a refusal, keeps each instance in its window, and keeps the invariant of each instance (10_state.md rule R37;
log entry 17). That an idle turn and an access no instance admits or decodes go on too is the model's choice (log entries
5, 7, 15). -/
def Obligations.InstancesStartInTheResetState : Prop :=
  ∀ slots : List Nat, slots ≠ [] → slots.Nodup →
    (System.reset slots).wf = true ∧ (System.reset slots).insts.map Placed.slot = slots ∧
    (∀ q ∈ (System.reset slots).insts,
      q.blk.state = .uninit ∧ q.blk.busy = false ∧ q.blk.pend = none ∧ q.blk.rej = false ∧ q.blk.errcode = 0#4 ∧
        q.blk.errval = 0#32 ∧ q.blk.ovf = false ∧ q.blk.l = 0#64 ∧ q.blk.p = 0#6 ∧ q.blk.data = 0#32 ∧
        ∀ r, q.blk.readReg r = 0#32) ∧
    ∀ evs : List SystemEvent, ∃ sys', System.run evs (System.reset slots) = .next sys' ∧ sys'.wf = true ∧
      sys'.insts.map Placed.slot = slots ∧ ∀ q ∈ sys'.insts, q.blk.Inv
end

