-- ==== Sys2Proof/Laws/Decode.lean ====
section
/-! SUPPORT. The decoder and the encoder case by case (30_encoding.md rules R72, R73). -/

namespace Sys2Proof

@[simp] theorem decode_encode (i : Instr) : decode (encode i) = .command i := by cases i <;> decide

@[simp] theorem decode_nop : decode 0x00000000#32 = .command .nop := by decide
@[simp] theorem decode_init : decode 0x00000001#32 = .command .init := by decide
@[simp] theorem decode_pushCp : decode 0x00000002#32 = .command .pushCp := by decide
@[simp] theorem decode_final : decode 0x00000003#32 = .command .final := by decide

/-- The two fields of a command word as numbers (30_encoding.md rule R70). -/
theorem commandWord_fields (v : Word) :
    (v.extractLsb 31 4).toNat = v.toNat / 16 ∧ (v.extractLsb 3 0).toNat = v.toNat % 16 := by
  have := v.isLt
  simp [BitVec.extractLsb_toNat, Nat.shiftRight_eq_div_pow]
  omega

/-- The reserved field is zero exactly below 16. -/
theorem reserved_zero_iff (v : Word) : v.extractLsb 31 4 = 0#28 ↔ v.toNat < 16 := by
  have h := (commandWord_fields v).1
  constructor
  · intro e
    rw [e] at h
    have : (0#28).toNat = 0 := rfl
    omega
  · intro e
    apply BitVec.eq_of_toNat_eq
    have : (0#28).toNat = 0 := rfl
    omega

end Sys2Proof
end

