-- ==== Sys2Proof/Laws/State.lean ====
section
/-! SUPPORT. One lemma per field per update of the block and of the machine, each true by rfl, so that no later proof
unfolds a record update. -/

namespace Sys2Proof.Machine

/-! `Block.raise` field by field. -/

@[simp] theorem Block.raise_h (b : Block) (e : ErrorKind) (v : Word) : (b.raise e v).h = b.h := rfl
@[simp] theorem Block.raise_buf (b : Block) (e : ErrorKind) (v : Word) : (b.raise e v).buf = b.buf := rfl
@[simp] theorem Block.raise_p (b : Block) (e : ErrorKind) (v : Word) : (b.raise e v).p = b.p := rfl
@[simp] theorem Block.raise_l (b : Block) (e : ErrorKind) (v : Word) : (b.raise e v).l = b.l := rfl
@[simp] theorem Block.raise_ovf (b : Block) (e : ErrorKind) (v : Word) : (b.raise e v).ovf = b.ovf := rfl
@[simp] theorem Block.raise_state (b : Block) (e : ErrorKind) (v : Word) : (b.raise e v).state = .error := rfl
@[simp] theorem Block.raise_busy (b : Block) (e : ErrorKind) (v : Word) : (b.raise e v).busy = b.busy := rfl
@[simp] theorem Block.raise_pend (b : Block) (e : ErrorKind) (v : Word) : (b.raise e v).pend = b.pend := rfl
@[simp] theorem Block.raise_rej (b : Block) (e : ErrorKind) (v : Word) : (b.raise e v).rej = b.rej := rfl
@[simp] theorem Block.raise_errcode (b : Block) (e : ErrorKind) (v : Word) : (b.raise e v).errcode = e.code := rfl
@[simp] theorem Block.raise_errval (b : Block) (e : ErrorKind) (v : Word) : (b.raise e v).errval = v := rfl
@[simp] theorem Block.raise_data (b : Block) (e : ErrorKind) (v : Word) : (b.raise e v).data = b.data := rfl
@[simp] theorem Block.raise_working (b : Block) (e : ErrorKind) (v : Word) : (b.raise e v).working = b.working := rfl
@[simp] theorem Block.raise_compressions (b : Block) (e : ErrorKind) (v : Word) : (b.raise e v).compressions = b.compressions := rfl

/-! `Block.clearForHash` field by field. -/

@[simp] theorem Block.clearForHash_h (b : Block) : (b.clearForHash).h = b.h := rfl
@[simp] theorem Block.clearForHash_buf (b : Block) : (b.clearForHash).buf = b.buf := rfl
@[simp] theorem Block.clearForHash_p (b : Block) : (b.clearForHash).p = 0#6 := rfl
@[simp] theorem Block.clearForHash_l (b : Block) : (b.clearForHash).l = 0#64 := rfl
@[simp] theorem Block.clearForHash_ovf (b : Block) : (b.clearForHash).ovf = false := rfl
@[simp] theorem Block.clearForHash_state (b : Block) : (b.clearForHash).state = .absorb := rfl
@[simp] theorem Block.clearForHash_busy (b : Block) : (b.clearForHash).busy = b.busy := rfl
@[simp] theorem Block.clearForHash_pend (b : Block) : (b.clearForHash).pend = b.pend := rfl
@[simp] theorem Block.clearForHash_rej (b : Block) : (b.clearForHash).rej = false := rfl
@[simp] theorem Block.clearForHash_errcode (b : Block) : (b.clearForHash).errcode = 0#4 := rfl
@[simp] theorem Block.clearForHash_errval (b : Block) : (b.clearForHash).errval = 0#32 := rfl
@[simp] theorem Block.clearForHash_data (b : Block) : (b.clearForHash).data = b.data := rfl
@[simp] theorem Block.clearForHash_working (b : Block) : (b.clearForHash).working = b.working := rfl
@[simp] theorem Block.clearForHash_compressions (b : Block) : (b.clearForHash).compressions = b.compressions := rfl

/-! `Block.initEffect` field by field. -/

@[simp] theorem Block.initEffect_h (b : Block) : (b.initEffect).h = iv := rfl
@[simp] theorem Block.initEffect_buf (b : Block) : (b.initEffect).buf = b.buf := rfl
@[simp] theorem Block.initEffect_p (b : Block) : (b.initEffect).p = 0#6 := rfl
@[simp] theorem Block.initEffect_l (b : Block) : (b.initEffect).l = 0#64 := rfl
@[simp] theorem Block.initEffect_ovf (b : Block) : (b.initEffect).ovf = false := rfl
@[simp] theorem Block.initEffect_state (b : Block) : (b.initEffect).state = .absorb := rfl
@[simp] theorem Block.initEffect_busy (b : Block) : (b.initEffect).busy = b.busy := rfl
@[simp] theorem Block.initEffect_pend (b : Block) : (b.initEffect).pend = b.pend := rfl
@[simp] theorem Block.initEffect_rej (b : Block) : (b.initEffect).rej = false := rfl
@[simp] theorem Block.initEffect_errcode (b : Block) : (b.initEffect).errcode = 0#4 := rfl
@[simp] theorem Block.initEffect_errval (b : Block) : (b.initEffect).errval = 0#32 := rfl
@[simp] theorem Block.initEffect_data (b : Block) : (b.initEffect).data = b.data := rfl
@[simp] theorem Block.initEffect_working (b : Block) : (b.initEffect).working = b.working := rfl
@[simp] theorem Block.initEffect_compressions (b : Block) : (b.initEffect).compressions = b.compressions := rfl

/-! `Block.reject` field by field. -/

@[simp] theorem Block.reject_h (b : Block) : (b.reject).h = b.h := rfl
@[simp] theorem Block.reject_buf (b : Block) : (b.reject).buf = b.buf := rfl
@[simp] theorem Block.reject_p (b : Block) : (b.reject).p = b.p := rfl
@[simp] theorem Block.reject_l (b : Block) : (b.reject).l = b.l := rfl
@[simp] theorem Block.reject_ovf (b : Block) : (b.reject).ovf = b.ovf := rfl
@[simp] theorem Block.reject_state (b : Block) : (b.reject).state = b.state := rfl
@[simp] theorem Block.reject_busy (b : Block) : (b.reject).busy = b.busy := rfl
@[simp] theorem Block.reject_pend (b : Block) : (b.reject).pend = b.pend := rfl
@[simp] theorem Block.reject_rej (b : Block) : (b.reject).rej = true := rfl
@[simp] theorem Block.reject_errcode (b : Block) : (b.reject).errcode = b.errcode := rfl
@[simp] theorem Block.reject_errval (b : Block) : (b.reject).errval = b.errval := rfl
@[simp] theorem Block.reject_data (b : Block) : (b.reject).data = b.data := rfl
@[simp] theorem Block.reject_working (b : Block) : (b.reject).working = b.working := rfl
@[simp] theorem Block.reject_compressions (b : Block) : (b.reject).compressions = b.compressions := rfl

/-! `Block.latch` field by field. -/

@[simp] theorem Block.latch_h (b : Block) (i : Instr) : (b.latch i).h = b.h := rfl
@[simp] theorem Block.latch_buf (b : Block) (i : Instr) : (b.latch i).buf = b.buf := rfl
@[simp] theorem Block.latch_p (b : Block) (i : Instr) : (b.latch i).p = b.p := rfl
@[simp] theorem Block.latch_l (b : Block) (i : Instr) : (b.latch i).l = b.l := rfl
@[simp] theorem Block.latch_ovf (b : Block) (i : Instr) : (b.latch i).ovf = b.ovf := rfl
@[simp] theorem Block.latch_state (b : Block) (i : Instr) : (b.latch i).state = b.state := rfl
@[simp] theorem Block.latch_busy (b : Block) (i : Instr) : (b.latch i).busy = true := rfl
@[simp] theorem Block.latch_pend (b : Block) (i : Instr) : (b.latch i).pend = some { op := i, operand := b.data } := rfl
@[simp] theorem Block.latch_rej (b : Block) (i : Instr) : (b.latch i).rej = b.rej := rfl
@[simp] theorem Block.latch_errcode (b : Block) (i : Instr) : (b.latch i).errcode = b.errcode := rfl
@[simp] theorem Block.latch_errval (b : Block) (i : Instr) : (b.latch i).errval = b.errval := rfl
@[simp] theorem Block.latch_data (b : Block) (i : Instr) : (b.latch i).data = b.data := rfl
@[simp] theorem Block.latch_working (b : Block) (i : Instr) : (b.latch i).working = b.working := rfl
@[simp] theorem Block.latch_compressions (b : Block) (i : Instr) : (b.latch i).compressions = b.compressions := rfl

/-! `Block.finish` field by field. -/

@[simp] theorem Block.finish_h (b : Block) : (b.finish).h = b.h := rfl
@[simp] theorem Block.finish_buf (b : Block) : (b.finish).buf = b.buf := rfl
@[simp] theorem Block.finish_p (b : Block) : (b.finish).p = b.p := rfl
@[simp] theorem Block.finish_l (b : Block) : (b.finish).l = b.l := rfl
@[simp] theorem Block.finish_ovf (b : Block) : (b.finish).ovf = b.ovf := rfl
@[simp] theorem Block.finish_state (b : Block) : (b.finish).state = b.state := rfl
@[simp] theorem Block.finish_busy (b : Block) : (b.finish).busy = false := rfl
@[simp] theorem Block.finish_pend (b : Block) : (b.finish).pend = none := rfl
@[simp] theorem Block.finish_rej (b : Block) : (b.finish).rej = b.rej := rfl
@[simp] theorem Block.finish_errcode (b : Block) : (b.finish).errcode = b.errcode := rfl
@[simp] theorem Block.finish_errval (b : Block) : (b.finish).errval = b.errval := rfl
@[simp] theorem Block.finish_data (b : Block) : (b.finish).data = b.data := rfl
@[simp] theorem Block.finish_working (b : Block) : (b.finish).working = b.working := rfl
@[simp] theorem Block.finish_compressions (b : Block) : (b.finish).compressions = b.compressions := rfl

/-! `Block.afterReset`: the reset values of 10_state.md rule R46. -/

@[simp] theorem Block.afterReset_p (b : Block) : b.afterReset.p = 0#6 := rfl
@[simp] theorem Block.afterReset_l (b : Block) : b.afterReset.l = 0#64 := rfl
@[simp] theorem Block.afterReset_ovf (b : Block) : b.afterReset.ovf = false := rfl
@[simp] theorem Block.afterReset_state (b : Block) : b.afterReset.state = .uninit := rfl
@[simp] theorem Block.afterReset_busy (b : Block) : b.afterReset.busy = false := rfl
@[simp] theorem Block.afterReset_pend (b : Block) : b.afterReset.pend = none := rfl
@[simp] theorem Block.afterReset_rej (b : Block) : b.afterReset.rej = false := rfl
@[simp] theorem Block.afterReset_errcode (b : Block) : b.afterReset.errcode = 0#4 := rfl
@[simp] theorem Block.afterReset_errval (b : Block) : b.afterReset.errval = 0#32 := rfl
@[simp] theorem Block.afterReset_data (b : Block) : b.afterReset.data = 0#32 := rfl
@[simp] theorem Block.afterReset_compressions (b : Block) : b.afterReset.compressions = b.compressions := rfl

/-! Updates of the machine. -/

@[simp] theorem State.answer_blk (s : State) (r : Reply) : (s.answer r).blk = s.blk := rfl
@[simp] theorem State.answer_host (s : State) (r : Reply) : (s.answer r).host = s.host := rfl
@[simp] theorem State.answer_sched (s : State) (r : Reply) : (s.answer r).sched = s.sched := rfl
@[simp] theorem State.answer_replies (s : State) (r : Reply) : (s.answer r).replies = r :: s.replies := rfl

@[simp] theorem State.popTurn_blk (s : State) : s.popTurn.blk = s.blk := rfl
@[simp] theorem State.popTurn_host (s : State) : s.popTurn.host = s.host := rfl
@[simp] theorem State.popTurn_sched (s : State) : s.popTurn.sched = s.sched.tail := rfl
@[simp] theorem State.popTurn_replies (s : State) : s.popTurn.replies = s.replies := rfl

@[simp] theorem State.resetTurn_blk (s : State) : s.resetTurn.blk = s.blk.afterReset := rfl
@[simp] theorem State.resetTurn_host (s : State) : s.resetTurn.host = s.host := rfl
@[simp] theorem State.resetTurn_sched (s : State) : s.resetTurn.sched = s.sched := rfl
@[simp] theorem State.resetTurn_replies (s : State) : s.resetTurn.replies = s.replies := rfl

@[simp] theorem State.completeWith_blk (s : State) (f : Word → Block → Block) :
    (s.completeWith f).blk = (f s.blk.operand s.blk).finish := rfl
@[simp] theorem State.completeWith_host (s : State) (f : Word → Block → Block) : (s.completeWith f).host = s.host := rfl
@[simp] theorem State.completeWith_sched (s : State) (f : Word → Block → Block) :
    (s.completeWith f).sched = s.sched := rfl
@[simp] theorem State.completeWith_replies (s : State) (f : Word → Block → Block) :
    (s.completeWith f).replies = s.replies := rfl

@[simp] theorem State.access_blk (s : State) (off : BitVec 6) (n : Nat) (k : AccessKind) :
    (s.access off n k).blk = s.blk.accessed off n k := rfl
@[simp] theorem State.access_host (s : State) (off : BitVec 6) (n : Nat) (k : AccessKind) :
    (s.access off n k).host = s.host := rfl
@[simp] theorem State.access_sched (s : State) (off : BitVec 6) (n : Nat) (k : AccessKind) :
    (s.access off n k).sched = s.sched := rfl
@[simp] theorem State.access_replies (s : State) (off : BitVec 6) (n : Nat) (k : AccessKind) :
    (s.access off n k).replies = s.blk.replyTo off n k s.replies.length :: s.replies := rfl

/-! The block right after reset. -/

@[simp] theorem State.reset_blk : State.reset.blk = Block.reset := rfl
@[simp] theorem State.reset_host : State.reset.host = [] := rfl
@[simp] theorem State.reset_sched : State.reset.sched = [] := rfl
@[simp] theorem State.reset_replies : State.reset.replies = [] := rfl

/-- The operand of a completion is the latched one (30_encoding.md rule R71). -/
@[simp] theorem Block.operand_of_pend {b : Block} {q : Pending} (h : b.pend = some q) : b.operand = q.operand := by
  simp [Block.operand, h]

end Sys2Proof.Machine
end

