-- ==== Sys2Proof/Laws/Padding.lean ====
section
/-! SUPPORT. What `append`, `absorb` and the zero padding can do (42_padding_parsing.md rules R140, R141, R145). -/

namespace Sys2Proof.Machine

/-- `append` of a byte that does not fill the block (42_padding_parsing.md rule R141). -/
theorem Block.append_of_ne {b : Block} (x : Byte) (h : b.p ≠ 63#6) :
    b.append x = { b with buf := b.buf.set b.p.toNat x b.p.isLt, p := b.p + 1#6 } := by
  simp [Block.append, h]

/-- `append` of the byte that fills the block (42_padding_parsing.md rule R141). -/
theorem Block.append_of_eq {b : Block} (x : Byte) (h : b.p = 63#6) :
    b.append x =
      { b with
        buf := b.buf.set b.p.toNat x b.p.isLt
        h := compress b.h (parse (b.buf.set b.p.toNat x b.p.isLt))
        p := 0#6
        working := Working.unspecified b.compressions
        compressions := b.compressions + 1 } := by
  simp [Block.append, h]

/-! What `append` leaves alone (42_padding_parsing.md rule R141). -/

@[simp] theorem Block.append_l (b : Block) (x : Byte) : (b.append x).l = b.l := by
  unfold Block.append; split <;> rfl
@[simp] theorem Block.append_ovf (b : Block) (x : Byte) : (b.append x).ovf = b.ovf := by
  unfold Block.append; split <;> rfl
@[simp] theorem Block.append_state (b : Block) (x : Byte) : (b.append x).state = b.state := by
  unfold Block.append; split <;> rfl
@[simp] theorem Block.append_busy (b : Block) (x : Byte) : (b.append x).busy = b.busy := by
  unfold Block.append; split <;> rfl
@[simp] theorem Block.append_pend (b : Block) (x : Byte) : (b.append x).pend = b.pend := by
  unfold Block.append; split <;> rfl
@[simp] theorem Block.append_rej (b : Block) (x : Byte) : (b.append x).rej = b.rej := by
  unfold Block.append; split <;> rfl
@[simp] theorem Block.append_errcode (b : Block) (x : Byte) : (b.append x).errcode = b.errcode := by
  unfold Block.append; split <;> rfl
@[simp] theorem Block.append_errval (b : Block) (x : Byte) : (b.append x).errval = b.errval := by
  unfold Block.append; split <;> rfl
@[simp] theorem Block.append_data (b : Block) (x : Byte) : (b.append x).data = b.data := by
  unfold Block.append; split <;> rfl

/-- `append` counts P up modulo 64 (10_state.md rule R25). -/
@[simp] theorem Block.append_p (b : Block) (x : Byte) : (b.append x).p = b.p + 1#6 := by
  by_cases h : b.p = 63#6
  · rw [Block.append_of_eq x h, h]; rfl
  · rw [Block.append_of_ne x h]

/-- `append` writes `S.BUF[S.P]` and no other byte of the buffer (10_state.md rule R25). -/
@[simp] theorem Block.append_buf (b : Block) (x : Byte) :
    (b.append x).buf = b.buf.set b.p.toNat x b.p.isLt := by
  unfold Block.append; split <;> rfl

/-- `append` changes the hash state only when the block is full (10_state.md rule R24). -/
theorem Block.append_h (b : Block) (x : Byte) :
    (b.append x).h = if b.p = 63#6 then compress b.h (parse (b.buf.set b.p.toNat x b.p.isLt)) else b.h := by
  unfold Block.append; split <;> rfl

/-- `append` counts a compression exactly when the block is full. -/
theorem Block.append_compressions (b : Block) (x : Byte) :
    (b.append x).compressions = if b.p = 63#6 then b.compressions + 1 else b.compressions := by
  unfold Block.append; split <;> rfl

/-! `absorb` is `append` with the length counter (42_padding_parsing.md rule R140). -/

@[simp] theorem Block.absorb_h (b : Block) (x : Byte) : (b.absorb x).h = (b.append x).h := rfl
@[simp] theorem Block.absorb_buf (b : Block) (x : Byte) : (b.absorb x).buf = b.buf.set b.p.toNat x b.p.isLt :=
  b.append_buf x
@[simp] theorem Block.absorb_p (b : Block) (x : Byte) : (b.absorb x).p = b.p + 1#6 := b.append_p x
@[simp] theorem Block.absorb_l (b : Block) (x : Byte) : (b.absorb x).l = lenNext b.l := rfl
@[simp] theorem Block.absorb_ovf (b : Block) (x : Byte) : (b.absorb x).ovf = (b.ovf || lenCarry b.l) := rfl
@[simp] theorem Block.absorb_state (b : Block) (x : Byte) : (b.absorb x).state = b.state := b.append_state x
@[simp] theorem Block.absorb_busy (b : Block) (x : Byte) : (b.absorb x).busy = b.busy := b.append_busy x
@[simp] theorem Block.absorb_pend (b : Block) (x : Byte) : (b.absorb x).pend = b.pend := b.append_pend x
@[simp] theorem Block.absorb_rej (b : Block) (x : Byte) : (b.absorb x).rej = b.rej := b.append_rej x
@[simp] theorem Block.absorb_errcode (b : Block) (x : Byte) : (b.absorb x).errcode = b.errcode := b.append_errcode x
@[simp] theorem Block.absorb_errval (b : Block) (x : Byte) : (b.absorb x).errval = b.errval := b.append_errval x
@[simp] theorem Block.absorb_data (b : Block) (x : Byte) : (b.absorb x).data = b.data := b.append_data x
@[simp] theorem Block.absorb_working (b : Block) (x : Byte) : (b.absorb x).working = (b.append x).working := rfl
@[simp] theorem Block.absorb_compressions (b : Block) (x : Byte) :
    (b.absorb x).compressions = (b.append x).compressions := rfl

/-- The length counter counts 8 modulo 2^64 (10_state.md rule R26). -/
theorem lenNext_eq (l : BitVec 64) : lenNext l = l + 8#64 := by
  apply BitVec.eq_of_toNat_eq
  simp [lenNext, lenSum, BitVec.toNat_add, BitVec.toNat_setWidth]

/-- The carry says that the true sum reached 2^64 (10_state.md rule R27). -/
theorem lenCarry_eq (l : BitVec 64) : lenCarry l = decide (2 ^ 64 ≤ l.toNat + 8) := by
  have hl := l.isLt
  have : (lenSum l).toNat = l.toNat + 8 := by
    simp [lenSum, BitVec.toNat_add, BitVec.toNat_setWidth]; omega
  unfold lenCarry BitVec.getLsbD
  rw [this, Nat.testBit_eq_decide_div_mod_eq]
  simp only [decide_eq_decide]
  omega

@[simp] theorem Block.absorbAll_nil (b : Block) : b.absorbAll [] = b := rfl
@[simp] theorem Block.absorbAll_cons (b : Block) (x : Byte) (xs : List Byte) :
    b.absorbAll (x :: xs) = (b.absorb x).absorbAll xs := rfl
@[simp] theorem Block.absorbAll_append (b : Block) (xs ys : List Byte) :
    b.absorbAll (xs ++ ys) = (b.absorbAll xs).absorbAll ys := List.foldl_append
@[simp] theorem Block.appendAll_nil (b : Block) : b.appendAll [] = b := rfl
@[simp] theorem Block.appendAll_cons (b : Block) (x : Byte) (xs : List Byte) :
    b.appendAll (x :: xs) = (b.append x).appendAll xs := rfl
@[simp] theorem Block.appendAll_append (b : Block) (xs ys : List Byte) :
    b.appendAll (xs ++ ys) = (b.appendAll xs).appendAll ys := List.foldl_append

/-- How many zero bytes bring P to 56 (42_padding_parsing.md rules R144, R145). -/
def zerosNeeded (p : BitVec 6) : Nat := (120 - p.toNat) % 64

/-- The loop of `pad_and_finish` appends exactly the zero bytes that bring P to 56, whenever its bound allows them
(42_padding_parsing.md rule R145). -/
theorem Block.zerosTo56_eq (n : Nat) (b : Block) (h : zerosNeeded b.p ≤ n) :
    Block.zerosTo56 n b = b.appendAll (List.replicate (zerosNeeded b.p) 0x00#8) := by
  induction n generalizing b with
  | zero => simp [Nat.le_zero.mp h, Block.zerosTo56]
  | succ n ih =>
    unfold Block.zerosTo56
    have hp := b.p.isLt
    split
    · next e => simp [e, zerosNeeded]
    · next e =>
      have e' : b.p.toNat ≠ 56 := fun c => e (BitVec.eq_of_toNat_eq c)
      have hs : zerosNeeded b.p = zerosNeeded (b.append 0x00#8).p + 1 := by
        simp only [zerosNeeded, Block.append_p, BitVec.toNat_add]
        have : (1#6).toNat = 1 := rfl
        have : b.p.toNat ≠ 56 := e'
        omega
      rw [ih _ (by omega), hs, List.replicate_succ, Block.appendAll_cons]

/-- Sixty-four turns of the loop are enough for every P. -/
theorem zerosNeeded_le (p : BitVec 6) : zerosNeeded p ≤ 64 := by unfold zerosNeeded; omega

/-- `pad_and_finish` appends one 0x80, the zero bytes that bring P to 56, and the eight length bytes
(42_padding_parsing.md rule R145). -/
theorem Block.padAndFinish_eq (b : Block) :
    b.padAndFinish =
      b.appendAll (0x80#8 :: List.replicate (zerosNeeded (b.p + 1#6)) 0x00#8 ++ lengthBytes b.l) := by
  simp [Block.padAndFinish, Block.zerosTo56_eq _ _ (zerosNeeded_le _)]

/-! What a run of `append` leaves alone. -/

@[simp] theorem Block.appendAll_l (xs : List Byte) (b : Block) : (b.appendAll xs).l = b.l := by
  induction xs generalizing b <;> simp [*]
@[simp] theorem Block.appendAll_ovf (xs : List Byte) (b : Block) : (b.appendAll xs).ovf = b.ovf := by
  induction xs generalizing b <;> simp [*]
@[simp] theorem Block.appendAll_state (xs : List Byte) (b : Block) : (b.appendAll xs).state = b.state := by
  induction xs generalizing b <;> simp [*]
@[simp] theorem Block.appendAll_busy (xs : List Byte) (b : Block) : (b.appendAll xs).busy = b.busy := by
  induction xs generalizing b <;> simp [*]
@[simp] theorem Block.appendAll_pend (xs : List Byte) (b : Block) : (b.appendAll xs).pend = b.pend := by
  induction xs generalizing b <;> simp [*]
@[simp] theorem Block.appendAll_rej (xs : List Byte) (b : Block) : (b.appendAll xs).rej = b.rej := by
  induction xs generalizing b <;> simp [*]
@[simp] theorem Block.appendAll_errcode (xs : List Byte) (b : Block) : (b.appendAll xs).errcode = b.errcode := by
  induction xs generalizing b <;> simp [*]
@[simp] theorem Block.appendAll_errval (xs : List Byte) (b : Block) : (b.appendAll xs).errval = b.errval := by
  induction xs generalizing b <;> simp [*]
@[simp] theorem Block.appendAll_data (xs : List Byte) (b : Block) : (b.appendAll xs).data = b.data := by
  induction xs generalizing b <;> simp [*]
@[simp] theorem Block.appendAll_p (xs : List Byte) (b : Block) :
    (b.appendAll xs).p = b.p + BitVec.ofNat 6 xs.length := by
  induction xs generalizing b with
  | nil => simp
  | cons x xs ih =>
    rw [Block.appendAll_cons, ih, Block.append_p]
    apply BitVec.eq_of_toNat_eq
    have : (1#6).toNat = 1 := rfl
    simp [BitVec.toNat_add]
    omega

/-! What a run of `absorb` leaves alone. -/

@[simp] theorem Block.absorbAll_state (xs : List Byte) (b : Block) : (b.absorbAll xs).state = b.state := by
  induction xs generalizing b <;> simp [*]
@[simp] theorem Block.absorbAll_busy (xs : List Byte) (b : Block) : (b.absorbAll xs).busy = b.busy := by
  induction xs generalizing b <;> simp [*]
@[simp] theorem Block.absorbAll_pend (xs : List Byte) (b : Block) : (b.absorbAll xs).pend = b.pend := by
  induction xs generalizing b <;> simp [*]
@[simp] theorem Block.absorbAll_rej (xs : List Byte) (b : Block) : (b.absorbAll xs).rej = b.rej := by
  induction xs generalizing b <;> simp [*]
@[simp] theorem Block.absorbAll_errcode (xs : List Byte) (b : Block) : (b.absorbAll xs).errcode = b.errcode := by
  induction xs generalizing b <;> simp [*]
@[simp] theorem Block.absorbAll_errval (xs : List Byte) (b : Block) : (b.absorbAll xs).errval = b.errval := by
  induction xs generalizing b <;> simp [*]
@[simp] theorem Block.absorbAll_data (xs : List Byte) (b : Block) : (b.absorbAll xs).data = b.data := by
  induction xs generalizing b <;> simp [*]

/-- Whether the length counter runs over while `n` bytes are absorbed (10_state.md rule R27). -/
theorem Block.absorbAll_l (xs : List Byte) (b : Block) :
    (b.absorbAll xs).l = b.l + BitVec.ofNat 64 (8 * xs.length) := by
  induction xs generalizing b with
  | nil => simp
  | cons x xs ih =>
    rw [Block.absorbAll_cons, ih, Block.absorb_l, lenNext_eq]
    apply BitVec.eq_of_toNat_eq
    have : (8#64).toNat = 8 := rfl
    simp [BitVec.toNat_add]
    omega

/-- The hash state, the buffer and P of a run of `absorb` are those of the same run of `append`: only L and OVF are
counted beside them (42_padding_parsing.md rule R140). -/
theorem Block.absorbAll_eq_appendAll (xs : List Byte) (b : Block) :
    b.absorbAll xs =
      { b.appendAll xs with l := (b.absorbAll xs).l, ovf := (b.absorbAll xs).ovf } := by
  induction xs using List.reverseRecOn with
  | nil => rfl
  | append_singleton xs x ih =>
    have key : ∀ (c : Block) (l : BitVec 64) (o : Bool),
        ({ c with l := l, ovf := o } : Block).absorb x =
          { c.append x with l := lenNext l, ovf := o || lenCarry l } := by
      intro c l o
      by_cases h : c.p = 63#6
      · rw [Block.append_of_eq x h]; simp [Block.absorb, Block.append, h]
      · rw [Block.append_of_ne x h]; simp [Block.absorb, Block.append, h]
    simp only [Block.absorbAll_append, Block.appendAll_append, Block.absorbAll_cons, Block.absorbAll_nil,
      Block.appendAll_cons, Block.appendAll_nil]
    rw [ih, key]

end Sys2Proof.Machine
end

