-- ==== Sys2Proof/Laws/Step.lean ====
section
/-! SUPPORT. What one step can do (10_state.md rule R20): the inversion lemma that later proofs cite instead of
unfolding `step`, and what each agent's turn leaves alone. -/

namespace Sys2Proof.Machine

/-! The meanings, each as one next state (40_commands.md rule R93). -/

@[simp] theorem exec_nop (s : State) : exec .nop s = .next (s.completeWith fun _ b => b) := rfl
@[simp] theorem exec_init (s : State) : exec .init s = .next (s.completeWith fun _ b => b.initEffect) := rfl
@[simp] theorem exec_pushCp (s : State) : exec .pushCp s = .next (s.completeWith Block.pushEffect) := rfl
@[simp] theorem exec_final (s : State) : exec .final s = .next (s.completeWith fun _ b => b.finalEffect) := rfl

/-- The effect of a command, as `exec` gives it. -/
def effectOf : Instr → Word → Block → Block
  | .nop => fun _ b => b
  | .init => fun _ b => b.initEffect
  | .pushCp => Block.pushEffect
  | .final => fun _ b => b.finalEffect

/-- Every command completes in every state (40_commands.md rule R93). -/
theorem exec_eq (i : Instr) (s : State) : exec i s = .next (s.completeWith (effectOf i)) := by cases i <;> rfl

theorem exec_next {i : Instr} {s t : State} (h : exec i s = .next t) : t = s.completeWith (effectOf i) := by
  rw [exec_eq] at h; exact (Host.Outcome.next.inj h).symm

/-! The engine's fetch. -/

theorem Block.fetch_command_iff {b : Block} {i : Instr} :
    b.fetch = .command i ↔ b.busy = true ∧ ∃ x, b.pend = some ⟨i, x⟩ := by
  unfold Block.fetch
  rcases hb : b.busy with _ | _ <;> rcases hp : b.pend with _ | ⟨op, x⟩ <;> simp

/-- What one step can do: if it answers a next state, then exactly one of the four moves was made. -/
theorem step_cases {s t : State} (h : step s = .next t) :
    (s.turn = .host ∧ t = s.popTurn.hostTurn) ∨
    (s.turn = .reset ∧ t = s.popTurn.resetTurn) ∨
    (s.turn = .engine ∧ s.blk.busy = false ∧ t = s.popTurn) ∨
    (∃ i x, s.turn = .engine ∧ s.blk.busy = true ∧ s.blk.pend = some ⟨i, x⟩ ∧
      t = s.popTurn.completeWith (effectOf i)) := by
  unfold step at h
  split at h
  · next ht => exact .inl ⟨ht, (Host.Outcome.next.inj h).symm⟩
  · next ht => exact .inr (.inl ⟨ht, (Host.Outcome.next.inj h).symm⟩)
  · next ht =>
    split at h
    · next hf =>
      refine .inr (.inr (.inl ⟨ht, ?_, (Host.Outcome.next.inj h).symm⟩))
      unfold Block.fetch at hf
      rcases hb : s.blk.busy with _ | _ <;> rcases hp : s.blk.pend with _ | _ <;> simp_all
    · next i hf =>
      obtain ⟨hb, x, hp⟩ := Block.fetch_command_iff.mp hf
      exact .inr (.inr (.inr ⟨i, x, ht, hb, hp, exec_next h⟩))
    · exact absurd h (by simp)

/-! The three moves, forwards. -/

theorem step_host {s : State} (h : s.turn = .host) : step s = .next s.popTurn.hostTurn := by simp [step, h]
theorem step_reset {s : State} (h : s.turn = .reset) : step s = .next s.popTurn.resetTurn := by simp [step, h]
theorem step_engine {s : State} {i : Instr} {x : Word} (h : s.turn = .engine) (hb : s.blk.busy = true)
    (hp : s.blk.pend = some ⟨i, x⟩) : step s = exec i s.popTurn := by
  simp [step, h, Block.fetch, hb, hp]
theorem step_idle {s : State} (h : s.turn = .engine) (hb : s.blk.busy = false) : step s = .next s.popTurn := by
  simp [step, h, Block.fetch, hb]

/-! What a host's access can do to the block (20_memory.md rule R59, 40_commands.md rule R111). -/

/-- A write to CMD latches a command or rejects it (40_commands.md rule R91). -/
theorem Block.accept_cases (b : Block) (v : Word) :
    b.accept v = b.reject ∨
      ∃ i, b.busy = false ∧ decode v = .command i ∧ legalIn i b.state = true ∧ b.accept v = b.latch i := by
  unfold Block.accept
  split
  · exact .inl rfl
  · next hb =>
    split
    · exact .inl rfl
    · next i hd =>
      split
      · next hl => exact .inr ⟨i, by simpa using hb, hd, hl, rfl⟩
      · exact .inl rfl

/-- An access leaves the block alone, writes DATA, rejects or latches a command. -/
theorem Block.accessed_cases (b : Block) (off : BitVec 6) (n : Nat) (k : AccessKind) :
    b.accessed off n k = b ∨ (∃ v, b.accessed off n k = { b with data := v }) ∨
      b.accessed off n k = b.reject ∨
      ∃ i, b.busy = false ∧ legalIn i b.state = true ∧ b.accessed off n k = b.latch i := by
  unfold Block.accessed
  split
  · cases k with
    | read => exact .inl rfl
    | write v =>
      unfold Block.regWrite
      cases regOf off with
      | cmd =>
        rcases b.accept_cases v with h | ⟨i, hb, _, hl, h⟩
        · exact .inr (.inr (.inl h))
        · exact .inr (.inr (.inr ⟨i, hb, hl, h⟩))
      | data => exact .inr (.inl ⟨v, rfl⟩)
      | _ => exact .inl rfl
  · exact .inl rfl

/-- A host turn does to the block what one access does (10_state.md rule R20). -/
theorem State.hostTurn_blk (s : State) :
    s.hostTurn.blk = s.blk ∨ ∃ off n k, s.hostTurn.blk = s.blk.accessed off n k := by
  unfold State.hostTurn
  split
  · exact .inl rfl
  · exact .inr ⟨_, _, _, State.access_blk ..⟩
  · exact .inr ⟨_, _, _, State.access_blk ..⟩
  · unfold State.busAccess
    split
    · exact .inr ⟨_, _, _, State.access_blk ..⟩
    · exact .inl rfl
  · split
    · exact .inr ⟨_, _, _, State.access_blk ..⟩
    · exact .inr ⟨_, _, _, State.access_blk ..⟩

/-- What a host turn can do to the block. -/
theorem State.hostTurn_cases (s : State) :
    s.hostTurn.blk = s.blk ∨ (∃ v, s.hostTurn.blk = { s.blk with data := v }) ∨
      s.hostTurn.blk = s.blk.reject ∨
      ∃ i, s.blk.busy = false ∧ legalIn i s.blk.state = true ∧ s.hostTurn.blk = s.blk.latch i := by
  rcases s.hostTurn_blk with h | ⟨off, n, k, h⟩
  · exact .inl h
  · rw [h]; exact s.blk.accessed_cases off n k

/-- A host turn leaves the schedule alone. -/
@[simp] theorem State.hostTurn_sched (s : State) : s.hostTurn.sched = s.sched := by
  unfold State.hostTurn
  split
  · rfl
  · rfl
  · rfl
  · unfold State.busAccess; split <;> rfl
  · split <;> rfl

/-! What each effect leaves alone. -/

/-- No command changes DATA (10_state.md rule R34). -/
@[simp] theorem effectOf_data (i : Instr) (x : Word) (b : Block) : (effectOf i x b).data = b.data := by
  cases i
  · rfl
  · rfl
  · simp only [effectOf, Block.pushEffect]; split <;> simp
  · simp only [effectOf, Block.finalEffect]; split <;> simp [Block.padAndFinish_eq]

end Sys2Proof.Machine
end

