-- ==== Sys2Proof/Laws/Stream.lean ====
section
/-! SUPPORT. A run of `append` read as a byte stream: the valid bytes of the buffer and the bytes appended are cut into
64-byte blocks, which are compressed in order, and the rest stays in the buffer (42_padding_parsing.md rules R141,
R142). -/

namespace Sys2Proof.Machine

/-- Only the first 64 bytes make the block's words (42_padding_parsing.md rule R142). -/
theorem blockWords_congr {f g : Nat → Byte} (h : ∀ i, i < 64 → f i = g i) : blockWords f = blockWords g := by
  unfold blockWords
  congr 1
  funext j
  have := j.isLt
  simp only [blockWord]
  rw [h _ (by omega), h _ (by omega), h _ (by omega), h _ (by omega)]

@[simp] theorem parseBlocks_length (p : List Byte) : (parseBlocks p).length = p.length / 64 := by simp [parseBlocks]

/-- The first block of a stream is its first 64 bytes, and the others are those of the rest. -/
theorem parseBlocks_append {x : List Byte} (y : List Byte) (hx : x.length = 64) :
    parseBlocks (x ++ y) = blockWords (fun i => x.getD i 0#8) :: parseBlocks y := by
  have hl : (x ++ y).length / 64 = y.length / 64 + 1 := by
    rw [List.length_append, hx]; omega
  unfold parseBlocks
  rw [hl, List.range_succ_eq_map, List.map_cons, List.map_map, List.cons_eq_cons]
  constructor
  · refine blockWords_congr fun i hi => ?_
    rw [Nat.mul_zero, Nat.zero_add, List.getD_append _ _ _ _ (by omega)]
  · refine List.map_congr_left fun k _ => ?_
    refine blockWords_congr fun i _ => ?_
    have : 64 * (k + 1) + i - 64 = 64 * k + i := by omega
    simp only [List.getD_eq_getElem?_getD, Nat.succ_eq_add_one]
    rw [List.getElem?_append_right (by omega), hx, this]

/-- A stream shorter than a block has no block. -/
theorem parseBlocks_short {x : List Byte} (hx : x.length < 64) : parseBlocks x = [] := by
  unfold parseBlocks; rw [Nat.div_eq_of_lt hx]; rfl

@[simp] theorem compressBlocks_nil (h : Vector Word 8) : compressBlocks h [] = h := rfl
@[simp] theorem compressBlocks_cons (h : Vector Word 8) (m : Vector Word 16) (ms : List (Vector Word 16)) :
    compressBlocks h (m :: ms) = compressBlocks (compress h m) ms := rfl
@[simp] theorem compressBlocks_append (h : Vector Word 8) (ms ns : List (Vector Word 16)) :
    compressBlocks h (ms ++ ns) = compressBlocks (compressBlocks h ms) ns := List.foldl_append

@[simp] theorem Block.valid_length (b : Block) : b.valid.length = b.p.toNat := by
  have := b.p.isLt
  simp [Block.valid]; omega

/-- One more byte that does not fill the block is one more valid byte. -/
theorem Block.valid_append_of_ne {b : Block} (x : Byte) (h : b.p ≠ 63#6) : (b.append x).valid = b.valid ++ [x] := by
  have hp := b.p.isLt
  have h' : b.p.toNat ≠ 63 := fun c => h (BitVec.eq_of_toNat_eq c)
  have e : (b.p + 1#6).toNat = b.p.toNat + 1 := by simp [BitVec.toNat_add]; omega
  rw [Block.append_of_ne x h]
  simp only [Block.valid, e]
  rw [List.take_add_one, Vector.toList_set, List.take_set_of_le (Nat.le_refl _), List.getElem?_set_self (by simpa using hp)]
  rfl

/-- The byte that fills the block makes the buffer the valid bytes and that byte. -/
theorem Block.set_of_full {b : Block} (x : Byte) (h : b.p = 63#6) :
    (b.buf.set b.p.toNat x b.p.isLt).toList = b.valid ++ [x] := by
  have e : b.p.toNat = 63 := by rw [h]; rfl
  have hl : b.buf.toList.length = 64 := by simp
  apply List.ext_getElem?
  intro i
  simp only [Block.valid, Vector.toList_set, e]
  rcases Nat.lt_trichotomy i 63 with hi | hi | hi
  · rw [List.getElem?_set_ne (by omega), List.getElem?_append_left (by simp; omega), List.getElem?_take_of_lt hi]
  · subst hi
    rw [List.getElem?_set_self (by omega), List.getElem?_append_right (by simp)]
    simp
  · rw [List.getElem?_eq_none (by simp; omega), List.getElem?_eq_none (by simp; omega)]

/-- Parsing a buffer reads its bytes. -/
theorem parse_eq (buf : Vector Byte 64) : parse buf = blockWords fun i => buf.toList.getD i 0#8 := by
  unfold parse
  refine blockWords_congr fun i hi => ?_
  simp [List.getD_eq_getElem?_getD, hi]

/-- A run of `append` (42_padding_parsing.md rule R141): the stream of the valid bytes and the appended ones is cut into
blocks, each compressed in order, and the rest is what is valid afterwards. -/
theorem Block.appendAll_stream (xs : List Byte) (b : Block) :
    (b.appendAll xs).h = compressBlocks b.h (parseBlocks (b.valid ++ xs)) ∧
      (b.appendAll xs).valid = (b.valid ++ xs).drop (64 * ((b.valid ++ xs).length / 64)) ∧
      (b.appendAll xs).compressions = b.compressions + (b.valid ++ xs).length / 64 := by
  have hb := b.p.isLt
  induction xs generalizing b with
  | nil =>
    have hs : (b.valid ++ []).length < 64 := by simpa using hb
    rw [parseBlocks_short hs, Nat.div_eq_of_lt hs]
    simp
  | cons x xs ih =>
    rw [Block.appendAll_cons]
    obtain ⟨h1, h2, h3⟩ := ih (b.append x) (b.append x).p.isLt
    rw [h1, h2, h3]
    by_cases hp : b.p = 63#6
    · have e : b.p.toNat = 63 := by rw [hp]; rfl
      have hv : (b.append x).valid = [] := by
        apply List.eq_nil_of_length_eq_zero
        rw [Block.valid_length, Block.append_p, hp]; rfl
      have hf : b.valid ++ x :: xs = (b.valid ++ [x]) ++ xs := by simp
      have hl : (b.valid ++ [x]).length = 64 := by simp [e]
      have hd : ((b.valid ++ [x]) ++ xs).length / 64 = xs.length / 64 + 1 := by
        rw [List.length_append, hl]; omega
      rw [hv, hf, parseBlocks_append xs hl, compressBlocks_cons, Block.append_h, if_pos hp,
        Block.append_compressions, if_pos hp, parse_eq, Block.set_of_full x hp, hd]
      refine ⟨rfl, ?_, ?_⟩
      · rw [List.drop_append (l₁ := b.valid ++ [x]), List.drop_eq_nil_of_le (as := b.valid ++ [x]) (by omega), hl,
          List.nil_append, List.nil_append, show 64 * (xs.length / 64 + 1) - 64 = 64 * (xs.length / 64) by omega]
      · rw [List.nil_append]; omega
    · rw [Block.valid_append_of_ne x hp, Block.append_h, if_neg hp, Block.append_compressions, if_neg hp]
      simp

/-- P after a run of `append`, as a number. -/
theorem Block.appendAll_p_toNat (xs : List Byte) (b : Block) :
    (b.appendAll xs).p.toNat = (b.p.toNat + xs.length) % 64 := by
  rw [Block.appendAll_p, BitVec.toNat_add, BitVec.toNat_ofNat]; omega

/-- Which bytes of the buffer a run of at most 64 `append` writes, and that it writes no other (10_state.md rule
R25). -/
theorem Block.appendAll_buf (xs : List Byte) (b : Block) (hx : xs.length ≤ 64) :
    (∀ k, k < xs.length → (b.appendAll xs).buf[(b.p.toNat + k) % 64]? = xs[k]?) ∧
      ∀ a : Nat, (∀ k, k < xs.length → a ≠ (b.p.toNat + k) % 64) → (b.appendAll xs).buf[a]? = b.buf[a]? := by
  induction xs using List.reverseRecOn with
  | nil => simp
  | append_singleton xs x ih =>
    rw [List.length_append, List.length_singleton] at hx
    obtain ⟨h1, h2⟩ := ih (by omega)
    have hb : (b.appendAll (xs ++ [x])).buf =
        (b.appendAll xs).buf.set (b.appendAll xs).p.toNat x (b.appendAll xs).p.isLt := by simp
    have hp := Block.appendAll_p_toNat xs b
    constructor
    · intro k hk
      rw [List.length_append, List.length_singleton] at hk
      rw [hb]
      by_cases e : k = xs.length
      · subst e
        rw [Vector.getElem?_set, if_pos hp, List.getElem?_append_right (Nat.le_refl _)]
        simp
      · rw [Vector.getElem?_set, if_neg (by omega), h1 k (by omega), List.getElem?_append_left (by omega)]
    · intro a ha
      rw [hb, Vector.getElem?_set, if_neg, h2 a]
      · exact fun k hk => ha k (by simp; omega)
      · rw [hp]; exact fun c => ha xs.length (by simp) c.symm

/-- The whole buffer after a run of `append`: where the stream reached its last, unfinished block, that block's bytes;
above them the bytes of the block before it; and the old bytes where no block was filled. -/
theorem Block.appendAll_buf_stream (xs : List Byte) (b : Block) (a : Nat) (ha : a < 64) :
    (b.appendAll xs).buf[a]? =
      if 64 * ((b.valid ++ xs).length / 64) + a < (b.valid ++ xs).length then
        (b.valid ++ xs)[64 * ((b.valid ++ xs).length / 64) + a]?
      else if 64 ≤ (b.valid ++ xs).length then
        (b.valid ++ xs)[64 * ((b.valid ++ xs).length / 64) - 64 + a]?
      else b.buf[a]? := by
  have hb := b.p.isLt
  induction xs using List.reverseRecOn with
  | nil =>
    have hs : (b.valid ++ []).length = b.p.toNat := by simp
    rw [hs, Nat.div_eq_of_lt hb]
    split
    · next h =>
      rw [List.append_nil, Block.valid, List.getElem?_take_of_lt (by omega)]
      simp
    · rw [if_neg (by omega)]; rfl
  | append_singleton xs x ih =>
    have hp := Block.appendAll_p_toNat xs b
    have hv := b.valid_length
    have hb' : (b.appendAll (xs ++ [x])).buf =
        (b.appendAll xs).buf.set (b.appendAll xs).p.toNat x (b.appendAll xs).p.isLt := by simp
    rw [hb', Vector.getElem?_set, ih]
    clear ih hb'
    rw [← List.append_assoc]
    simp only [List.length_append, List.length_singleton, hp, hv]
    by_cases e : (b.p.toNat + xs.length) % 64 = a
    · rw [if_pos e]
      have hn : ((b.valid ++ xs) ++ [x])[b.p.toNat + xs.length]? = some x := by
        rw [List.getElem?_append_right (by simp)]; simp
      split
      · rw [← hn]; congr 1; omega
      · rw [if_pos (by omega), ← hn]; congr 1; omega
    · rw [if_neg e]
      have hn : ∀ i, i < b.p.toNat + xs.length → ((b.valid ++ xs) ++ [x])[i]? = (b.valid ++ xs)[i]? := by
        intro i hi; rw [List.getElem?_append_left (by simpa using hi)]
      by_cases c : 64 * ((b.p.toNat + xs.length) / 64) + a < b.p.toNat + xs.length
      · rw [if_pos c]
        by_cases f : (b.p.toNat + xs.length) % 64 = 63
        · rw [if_neg (by omega), if_pos (by omega), hn _ (by omega)]; congr 1; omega
        · rw [if_pos (by omega), hn _ (by omega)]; congr 1; omega
      · rw [if_neg c, if_neg (show ¬ 64 * ((b.p.toNat + xs.length + 1) / 64) + a < b.p.toNat + xs.length + 1 by omega)]
        by_cases d : 64 ≤ b.p.toNat + xs.length
        · rw [if_pos d, if_pos (by omega), hn _ (by omega)]; congr 1; omega
        · rw [if_neg d, if_neg (by omega)]

end Sys2Proof.Machine
end

