-- ==== Sys2Proof/Laws/Utf8.lean ====
section
/-! SUPPORT. The cases of the encoder (41_utf8_encoder.md rules R121, R122, R123). -/

namespace Sys2Proof.Machine

theorem maxCodePoint_eq : maxCodePoint = 0x1FFFFF := rfl

/-- The encoder fails exactly above 0x1FFFFF (41_utf8_encoder.md rule R123). -/
theorem utf8Encode_eq_none {c : Word} : utf8Encode c = none ↔ maxCodePoint < c.toNat := by
  have := maxCodePoint_eq
  unfold utf8Encode
  split
  · constructor <;> intro h
    · cases h
    · omega
  · split
    · constructor <;> intro h
      · cases h
      · omega
    · split
      · constructor <;> intro h
        · cases h
        · omega
      · split
        · constructor <;> intro h
          · cases h
          · omega
        · exact ⟨fun _ => by omega, fun _ => rfl⟩

/-- Below the limit the encoder gives the unit's bytes. -/
theorem utf8Encode_eq_some {c : Word} (h : c.toNat ≤ maxCodePoint) : utf8Encode c = some (utf8Bytes c) := by
  rcases e : utf8Encode c with _ | bs
  · exact absurd (utf8Encode_eq_none.mp e) (by omega)
  · simp [utf8Bytes, e]

/-- A unit has at most four bytes (00_scope.md rule R6). -/
theorem utf8Bytes_length_le (c : Word) : (utf8Bytes c).length ≤ 4 := by
  unfold utf8Bytes utf8Encode
  split
  · simp
  · split
    · simp
    · split
      · simp
      · split <;> simp

/-- A unit that is encoded has at least one byte. -/
theorem utf8Bytes_ne_nil {c : Word} (h : c.toNat ≤ maxCodePoint) : utf8Bytes c ≠ [] := by
  unfold utf8Bytes utf8Encode
  split
  · simp
  · split
    · simp
    · split
      · simp
      · simp

/-- The four forms of a unit, each with its range of code points (41_utf8_encoder.md rules R121, R122). -/
theorem utf8Encode_cases {c : Word} {bs : List Byte} (h : utf8Encode c = some bs) :
    (c.toNat ≤ 0x7F ∧ bs = [0b0#1 ++ c.extractLsb 6 0]) ∨
    (0x80 ≤ c.toNat ∧ c.toNat ≤ 0x7FF ∧ bs = [0b110#3 ++ c.extractLsb 10 6, 0b10#2 ++ c.extractLsb 5 0]) ∨
    (0x800 ≤ c.toNat ∧ c.toNat ≤ 0xFFFF ∧
      bs = [0b1110#4 ++ c.extractLsb 15 12, 0b10#2 ++ c.extractLsb 11 6, 0b10#2 ++ c.extractLsb 5 0]) ∨
    (0x10000 ≤ c.toNat ∧ c.toNat ≤ 0x1FFFFF ∧
      bs = [0b11110#5 ++ c.extractLsb 20 18, 0b10#2 ++ c.extractLsb 17 12, 0b10#2 ++ c.extractLsb 11 6,
        0b10#2 ++ c.extractLsb 5 0]) := by
  have hm := maxCodePoint_eq
  unfold utf8Encode at h
  split at h
  · cases h; exact .inl ⟨by assumption, rfl⟩
  · split at h
    · cases h; exact .inr (.inl ⟨by omega, by assumption, rfl⟩)
    · split at h
      · cases h; exact .inr (.inr (.inl ⟨by omega, by assumption, rfl⟩))
      · split at h
        · cases h; exact .inr (.inr (.inr ⟨by omega, by omega, rfl⟩))
        · cases h

@[simp] theorem messageOf_nil : messageOf [] = [] := rfl
@[simp] theorem messageOf_cons (c : Word) (cs : List Word) : messageOf (c :: cs) = utf8Bytes c ++ messageOf cs := rfl
@[simp] theorem messageOf_append (cs ds : List Word) : messageOf (cs ++ ds) = messageOf cs ++ messageOf ds := by
  simp [messageOf]

end Sys2Proof.Machine
end

