-- ==== Sys2Proof/Laws/Commands.lean ====
section
/-! SUPPORT. The effects of the commands case by case, over runs of `append` (40_commands.md rules R102, R104), which
later proofs cite instead of unfolding them. -/

namespace Sys2Proof.Machine

/-! A run of `absorb` has the hash state, buffer, P and working registers of the run of `append`
(42_padding_parsing.md rule R140). -/

theorem Block.absorbAll_h (xs : List Byte) (b : Block) : (b.absorbAll xs).h = (b.appendAll xs).h := by
  rw [Block.absorbAll_eq_appendAll]
theorem Block.absorbAll_buf (xs : List Byte) (b : Block) : (b.absorbAll xs).buf = (b.appendAll xs).buf := by
  rw [Block.absorbAll_eq_appendAll]
theorem Block.absorbAll_p (xs : List Byte) (b : Block) : (b.absorbAll xs).p = (b.appendAll xs).p := by
  rw [Block.absorbAll_eq_appendAll]
theorem Block.absorbAll_working (xs : List Byte) (b : Block) :
    (b.absorbAll xs).working = (b.appendAll xs).working := by
  rw [Block.absorbAll_eq_appendAll]
theorem Block.absorbAll_compressions (xs : List Byte) (b : Block) :
    (b.absorbAll xs).compressions = (b.appendAll xs).compressions := by
  rw [Block.absorbAll_eq_appendAll]
theorem Block.absorbAll_valid (xs : List Byte) (b : Block) : (b.absorbAll xs).valid = (b.appendAll xs).valid := by
  unfold Block.valid; rw [Block.absorbAll_buf, Block.absorbAll_p]

/-- OVF once set stays set while bytes are absorbed (10_state.md rule R27). -/
theorem Block.absorbAll_ovf_of_ovf (xs : List Byte) {b : Block} (h : b.ovf = true) : (b.absorbAll xs).ovf = true := by
  induction xs generalizing b with
  | nil => exact h
  | cons x xs ih => rw [Block.absorbAll_cons]; exact ih (by simp [h])

/-- OVF after fewer than 2^61 bytes: the true bit length reached 2^64 (10_state.md rule R27). -/
theorem Block.absorbAll_ovf (xs : List Byte) (b : Block) (h : 8 * xs.length < 2 ^ 64) :
    (b.absorbAll xs).ovf = (b.ovf || decide (2 ^ 64 ≤ b.l.toNat + 8 * xs.length)) := by
  have hl := b.l.isLt
  induction xs using List.reverseRecOn with
  | nil =>
    have : ¬ 2 ^ 64 ≤ b.l.toNat + 8 * ([] : List Byte).length := by simp only [List.length_nil]; omega
    rw [decide_eq_false this, Bool.or_false]; rfl
  | append_singleton xs x ih =>
    rw [List.length_append, List.length_singleton] at h ⊢
    rw [Block.absorbAll_append, Block.absorbAll_cons, Block.absorbAll_nil, Block.absorb_ovf, ih (by omega), lenCarry_eq,
      Block.absorbAll_l, BitVec.toNat_add, BitVec.toNat_ofNat, Bool.or_assoc]
    congr 1
    rw [← Bool.decide_or, decide_eq_decide]
    omega

/-- A run of `append` that fills no block leaves the working registers alone (10_state.md rule R35). -/
theorem Block.appendAll_working (xs : List Byte) (b : Block) (h : b.p.toNat + xs.length < 64) :
    (b.appendAll xs).working = b.working := by
  induction xs generalizing b with
  | nil => rfl
  | cons x xs ih =>
    rw [List.length_cons] at h
    have h63 : b.p ≠ 63#6 := by
      rintro e
      have : b.p.toNat = 63 := by rw [e]; rfl
      omega
    have h1 : (b.p + 1#6).toNat = b.p.toNat + 1 := by
      simp [BitVec.toNat_add]; omega
    rw [Block.appendAll_cons, ih _ (by rw [Block.append_p, h1]; omega), Block.append_of_ne x h63]

/-- A run of `append` counts its compressions up, and changes the hash state only with one (10_state.md rule R24). -/
theorem Block.appendAll_compressions_le (xs : List Byte) (b : Block) :
    b.compressions ≤ (b.appendAll xs).compressions ∧
      ((b.appendAll xs).h ≠ b.h → b.compressions < (b.appendAll xs).compressions) := by
  induction xs generalizing b with
  | nil => exact ⟨Nat.le_refl _, fun h => absurd rfl h⟩
  | cons x xs ih =>
    obtain ⟨h1, h2⟩ := ih (b.append x)
    rw [Block.append_compressions] at h1 h2
    rw [Block.append_h] at h2
    rw [Block.appendAll_cons]
    by_cases hp : b.p = 63#6
    · rw [if_pos hp] at h1
      exact ⟨by omega, fun _ => by omega⟩
    · rw [if_neg hp] at h1 h2
      rw [if_neg hp] at h2
      exact ⟨h1, h2⟩

/-! PUSH_CP. -/

/-- PUSH_CP above the limit is the error entry (40_commands.md rule R102). -/
theorem Block.pushEffect_of_gt {x : Word} (b : Block) (h : maxCodePoint < x.toNat) :
    b.pushEffect x = b.raise .encodingError x := by
  simp [Block.pushEffect, utf8Encode_eq_none.mpr h]

/-- PUSH_CP within the limit absorbs the unit (40_commands.md rule R102). -/
theorem Block.pushEffect_of_le {x : Word} (b : Block) (h : x.toNat ≤ maxCodePoint) :
    b.pushEffect x = b.absorbAll (utf8Bytes x) := by
  simp [Block.pushEffect, utf8Encode_eq_some h]

/-! FINAL. -/

/-- The bytes FINAL appends (42_padding_parsing.md rule R145). -/
def Block.padding (b : Block) : List Byte :=
  0x80#8 :: List.replicate (zerosNeeded (b.p + 1#6)) 0x00#8 ++ lengthBytes b.l

theorem Block.padAndFinish_eq_padding (b : Block) : b.padAndFinish = b.appendAll b.padding := b.padAndFinish_eq

/-- FINAL beyond the limit is the error entry (40_commands.md rule R104). -/
theorem Block.finalEffect_of_ovf {b : Block} (h : b.ovf = true) :
    b.finalEffect = b.raise .messageTooLargeError 0#32 := by
  simp [Block.finalEffect, h]

/-- FINAL within the limit appends the padding and is done (40_commands.md rule R104). -/
theorem Block.finalEffect_of_not_ovf {b : Block} (h : b.ovf = false) :
    b.finalEffect = { b.appendAll b.padding with state := .done } := by
  simp only [Block.finalEffect, h, Block.padAndFinish_eq_padding]
  rfl

/-- The number of zero bytes as 42_padding_parsing.md rule R144 gives it. -/
theorem zerosNeeded_eq (p : BitVec 6) : zerosNeeded (p + 1#6) = ((55 - (p.toNat : Int)) % 64).toNat := by
  have := p.isLt
  have h1 : (1#6).toNat = 1 := rfl
  simp only [zerosNeeded, BitVec.toNat_add, h1]
  omega

/-- The stream FINAL completes: the valid bytes and the padding (42_padding_parsing.md rule R145). -/
theorem Block.valid_append_padding (b : Block) : b.valid ++ b.padding = b.finalTail := by
  simp [Block.finalTail, Block.padding, zerosNeeded_eq]

/-- It is one block or two (42_padding_parsing.md rule R146). -/
theorem Block.finalTail_length (b : Block) : b.finalTail.length = if b.p.toNat ≤ 55 then 64 else 128 := by
  have := b.p.isLt
  have hv := b.valid_length
  simp only [Block.finalTail, lengthBytes, List.length_append, List.length_replicate, List.length_cons,
    List.length_nil, hv]
  split <;> omega

/-- After the padding the buffer is empty (42_padding_parsing.md rule R147). -/
theorem Block.appendAll_padding_p (b : Block) : (b.appendAll b.padding).p = 0#6 := by
  have h := (b.appendAll_stream b.padding).2.1
  rw [b.valid_append_padding] at h
  have hl := congrArg List.length h
  rw [Block.valid_length, List.length_drop, b.finalTail_length] at hl
  apply BitVec.eq_of_toNat_eq
  rw [hl]
  split <;> rfl

end Sys2Proof.Machine
end

