-- ==== Sys2Proof/Laws/Compression.lean ====
section
/-! SUPPORT. The message schedule read by index (43_compression.md rule R170). -/

namespace Sys2Proof.Machine

/-- The schedule has sixteen words and one more for each word put behind them. -/
@[simp] theorem scheduleFrom_length (m : Vector Word 16) (n : Nat) : (scheduleFrom m n).length = 16 + n := by
  induction n with
  | zero => simp [scheduleFrom]
  | succ n ih => simp [scheduleFrom, scheduleNext, ih]; omega

/-- A word of the schedule stays where it is while later ones are put behind it. -/
theorem scheduleFrom_getElem? (m : Vector Word 16) (n k t : Nat) (h : t < 16 + n) :
    (scheduleFrom m (n + k))[t]? = (scheduleFrom m n)[t]? := by
  induction k with
  | zero => rfl
  | succ k ih =>
    rw [← Nat.add_assoc, scheduleFrom, scheduleNext, List.getElem?_append_left, ih]
    rw [scheduleFrom_length]; omega

/-- The rounds, one at a time (43_compression.md rule R172). -/
theorem Vars.rounds_succ (v : Vars) (w : List Word) (t : Nat) :
    v.rounds w (t + 1) = (v.rounds w t).round (kConst t) (w.getD t 0#32) := rfl

end Sys2Proof.Machine
end

