-- ==== Sys2Proof/Laws/PerInstr.lean ====
section
/-! SUPPORT. One statement about every command as a word: it is well-formed, its word is well-formed, and its word is
read back as the command (30_encoding.md rules R72, R73). -/

namespace Sys2Proof.Laws.Encoding

/-- The command's word is a well-formed command word, and the decoder reads the command from it. -/
def Statement (i : Instr) : Prop :=
  i.wf = true ∧ commandWordWf (encode i) = true ∧ decodeTableWord 32 (encode i).toNat = some i

theorem nop : Statement .nop := by unfold Statement; decide
theorem init : Statement .init := by unfold Statement; decide
theorem pushCp : Statement .pushCp := by unfold Statement; decide
theorem final : Statement .final := by unfold Statement; decide

end Sys2Proof.Laws.Encoding
end

