-- ==== Sys2Proof/Laws/Run.lean ====
section
/-! SUPPORT. Runs of several steps, one step at a time. -/

namespace Sys2Proof.Machine

@[simp] theorem run_zero (s : State) : run 0 s = .next s := rfl

/-- A run that begins with a step to a next state goes on from there. -/
theorem run_succ {n : Nat} {s t : State} (h : step s = .next t) : run (n + 1) s = run n t := by
  have h' : core.step s = .next t := h
  simp only [run, Host.Core.run, h']
  rfl

/-- One step is a run of one step. -/
theorem run_one (s : State) : run 1 s = step s := by
  have e : core.step s = step s := rfl
  rcases h : step s with t | r | r
  · rw [run_succ h]; rfl
  · have h' : core.step s = .fault r := h
    simp only [run, Host.Core.run, h']
    rfl
  · have h' : core.step s = .refused r := h
    simp only [run, Host.Core.run, h']
    rfl

/-- A run in two parts. -/
theorem run_add {n m : Nat} {s u : State} (h : run n s = .next u) : run (n + m) s = run m u := by
  induction n generalizing s with
  | zero => cases h; rw [Nat.zero_add]
  | succ n ih =>
    rcases e : step s with t | r | r
    · rw [run_succ e] at h
      rw [Nat.add_right_comm, run_succ e, ih h]
    · have e' : core.step s = .fault r := e
      simp [run, Host.Core.run, e'] at h
    · have e' : core.step s = .refused r := e
      simp [run, Host.Core.run, e'] at h

end Sys2Proof.Machine
end

