-- ==== Sys2Proof/Laws/Window.lean ====
section
/-! SUPPORT. The register window: which register an offset selects, which offset an address, and what bit 0 of STATUS is
(20_memory.md rules R51, R57; 10_state.md rules R38, R41). -/

namespace Sys2Proof.Machine

/-- The eight digest offsets select the digest registers (10_state.md rule R38). -/
@[simp] theorem regOf_offDigest (j : Fin 8) : regOf (offDigest j) = .digest j := by revert j; decide

/-- An aligned offset other than those of CMD and DATA selects neither of them. -/
theorem regOf_ne_of_aligned {off : BitVec 6} (ha : off.extractLsb 1 0 = 0#2) (hc : off ≠ 0x00#6) (hd : off ≠ 0x04#6) :
    regOf off ≠ .cmd ∧ regOf off ≠ .data := by
  revert off; decide +kernel

/-- What `poll` looks at is BUSY (30_encoding.md rule R78, 10_state.md rule R41). -/
theorem Block.regRead_offStatus_bit0 (b : Block) : (b.regRead offStatus).getLsbD 0 = b.busy := by
  show b.status.getLsbD 0 = b.busy
  simp only [Block.status, BitVec.getLsbD_setWidth, BitVec.getLsbD_append]
  simp

/-- Every address of the window gives its offset (20_memory.md rule R51). -/
theorem windowOffset_add (base : Nat) (off : BitVec 6) : windowOffset base (base + off.toNat) = some off := by
  have := off.isLt
  unfold windowOffset
  rw [if_pos (by omega), Nat.add_sub_cancel_left, BitVec.ofNat_toNat, BitVec.setWidth_eq]

/-- No other address gives one (20_memory.md rule R51). -/
theorem windowOffset_outside {base addr : Nat} (h : addr < base ∨ base + 0x3F < addr) :
    windowOffset base addr = none := by
  unfold windowOffset; rw [if_neg (by omega)]

/-- An access that is not admitted leaves the block alone (20_memory.md rule R57). -/
theorem Block.accessed_of_not_admitted (b : Block) {off : BitVec 6} {n : Nat} (k : AccessKind)
    (h : accessAdmitted n off = false) : b.accessed off n k = b := by
  simp [Block.accessed, h]

/-- A read leaves the block alone (20_memory.md rule R59). -/
@[simp] theorem Block.accessed_read (b : Block) (off : BitVec 6) (n : Nat) : b.accessed off n .read = b := by
  simp [Block.accessed]

/-- An access moves no instance to another window (60_exceptions.md rule R215). -/
@[simp] theorem Placed.accessed_slot (q : Placed) (a : BusAccess) : (q.accessed a).slot = q.slot := by
  unfold Placed.accessed; split <;> rfl

end Sys2Proof.Machine
end

