-- ==== Sys2Proof/Laws/System.lean ====
section
/-! SUPPORT. Several instances on one bus (60_exceptions.md rule R215): the system after reset, which instance an address
selects, and what one step of the system can do. -/

namespace Sys2Proof.Machine

/-! The system after reset. -/

@[simp] theorem System.reset_slots (slots : List Nat) : (System.reset slots).insts.map Placed.slot = slots := by
  simp [System.reset, Function.comp_def]

@[simp] theorem System.reset_replies (slots : List Nat) : (System.reset slots).replies = [] := rfl

/-- Every instance starts in the reset state (10_state.md rule R46). -/
theorem System.reset_blk {slots : List Nat} {q : Placed} (h : q ∈ (System.reset slots).insts) : q.blk = Block.reset := by
  obtain ⟨k, -, rfl⟩ := List.mem_map.mp h
  rfl

/-! Well-formedness is about the slots alone. -/

theorem System.wf_iff (sys : System) :
    sys.wf = true ↔ sys.insts.map Placed.slot ≠ [] ∧ (sys.insts.map Placed.slot).Nodup := by
  simp [System.wf]

/-- Two places with the same slot are the same place. -/
theorem System.index_eq_of_slot_eq {sys : System} (hwf : sys.wf = true) {j k : Nat} {q r : Placed}
    (hj : sys.insts[j]? = some q) (hk : sys.insts[k]? = some r) (h : q.slot = r.slot) : j = k := by
  obtain ⟨jl, rfl⟩ := List.getElem?_eq_some_iff.mp hj
  obtain ⟨kl, rfl⟩ := List.getElem?_eq_some_iff.mp hk
  exact (List.Nodup.getElem_inj_iff ((System.wf_iff sys).mp hwf).2 (hi := by simpa using jl)
    (hj := by simpa using kl)).mp (by simpa using h)

/-! The instance an address selects (20_memory.md rule R51). -/

theorem Placed.offset_add (q : Placed) (off : BitVec 6) :
    q.offset (Config.baseOf q.slot + off.toNat) = some off := windowOffset_add _ off

/-- An address gives offsets in the windows of one slot only. -/
theorem Placed.slot_eq_of_offset {q r : Placed} {addr : Nat} (hq : (q.offset addr).isSome = true)
    (hr : (r.offset addr).isSome = true) : q.slot = r.slot := by
  have inside : ∀ x : Placed, (x.offset addr).isSome = true →
      Config.baseOf x.slot ≤ addr ∧ addr ≤ Config.baseOf x.slot + 0x3F := by
    intro x hx
    by_contra hc
    rw [Placed.offset, windowOffset_outside (by omega)] at hx
    cases hx
  have := inside q hq
  have := inside r hr
  simp only [Config.baseOf] at *
  omega

theorem Placed.accessed_of_offset {q : Placed} {a : BusAccess} {off : BitVec 6} (h : q.offset a.addr = some off) :
    q.accessed a = { q with blk := q.blk.accessed off a.bytes a.kind } := by simp [Placed.accessed, h]

theorem Placed.accessed_of_outside {q : Placed} {a : BusAccess} (h : q.offset a.addr = none) : q.accessed a = q := by
  simp [Placed.accessed, h]

/-- The instance whose window holds the address answers (40_commands.md rules R110, R111). -/
theorem System.replyTo_of_offset {sys : System} (hwf : sys.wf = true) {a : BusAccess} {k : Nat} {q : Placed}
    {off : BitVec 6} (hk : sys.insts[k]? = some q) (h : q.offset a.addr = some off) :
    sys.replyTo a = q.blk.replyTo off a.bytes a.kind sys.replies.length := by
  have hm : q ∈ sys.insts := List.mem_of_getElem? hk
  have hf : sys.insts.find? (fun r => (r.offset a.addr).isSome) = some q := by
    rcases e : sys.insts.find? (fun r => (r.offset a.addr).isSome) with _ | r
    · exact absurd (List.find?_eq_none.mp e q hm) (by simp [h])
    · have hr : (r.offset a.addr).isSome = true :=
        List.find?_some (p := fun x : Placed => (x.offset a.addr).isSome) e
      obtain ⟨j, hj⟩ := List.mem_iff_getElem?.mp (List.mem_of_find?_eq_some e)
      have hjk := System.index_eq_of_slot_eq hwf hj hk (Placed.slot_eq_of_offset hr (by simp [h]))
      rw [hjk, hk] at hj
      exact e.trans hj.symm
  simp only [System.replyTo, hf, h]

/-- An address in no window is answered by no instance (20_memory.md rule R51; log entry 15). -/
theorem System.replyTo_of_outside {sys : System} {a : BusAccess} (h : ∀ q ∈ sys.insts, q.offset a.addr = none) :
    sys.replyTo a = .notDecoded := by
  have hf : sys.insts.find? (fun r => (r.offset a.addr).isSome) = none :=
    List.find?_eq_none.mpr fun q hq => by simp [h q hq]
  simp only [System.replyTo, hf]

/-! One step of the system. -/

@[simp] theorem System.access_slots (sys : System) (a : BusAccess) :
    (sys.access a).insts.map Placed.slot = sys.insts.map Placed.slot := by
  simp [System.access, Function.comp_def]

/-- A new block for one instance moves no instance to another window. -/
theorem slots_set {qs : List Placed} {k : Nat} {q : Placed} (b : Block) (hk : qs[k]? = some q) :
    (qs.set k { q with blk := b }).map Placed.slot = qs.map Placed.slot := by
  obtain ⟨hl, rfl⟩ := List.getElem?_eq_some_iff.mp hk
  rw [List.map_set]
  show (qs.map Placed.slot).set k qs[k].slot = _
  rw [← List.getElem_map Placed.slot (h := by simpa using hl), List.set_getElem_self]

/-- What one step of a system can do: if it answers next, it made an access, it let an instance that is not there pass, or
it moved one instance as that instance moves alone. -/
theorem System.step_cases {sys sys' : System} {ev : SystemEvent} (h : sys.step ev = .next sys') :
    (∃ a, ev = .access a ∧ sys' = sys.access a) ∨
    (∃ k t, ev = .turn k t ∧ sys.insts[k]? = none ∧ sys' = sys) ∨
    ∃ k t q s, ev = .turn k t ∧ sys.insts[k]? = some q ∧ Machine.step (q.alone t) = .next s ∧
      sys' = { sys with insts := sys.insts.set k { q with blk := s.blk } } := by
  cases ev with
  | access a => exact .inl ⟨a, rfl, (Host.Outcome.next.inj h).symm⟩
  | turn k t =>
    simp only [System.step] at h
    split at h
    · next hk => exact .inr (.inl ⟨k, t, rfl, hk, (Host.Outcome.next.inj h).symm⟩)
    · next q hk =>
      split at h
      · next s hs => exact .inr (.inr ⟨k, t, q, s, rfl, hk, hs, (Host.Outcome.next.inj h).symm⟩)
      · exact absurd h (by simp)
      · exact absurd h (by simp)

/-- Every step leaves every instance in its window. -/
theorem System.step_slots {sys sys' : System} {ev : SystemEvent} (h : sys.step ev = .next sys') :
    sys'.insts.map Placed.slot = sys.insts.map Placed.slot := by
  rcases System.step_cases h with ⟨a, -, rfl⟩ | ⟨k, t, -, -, rfl⟩ | ⟨k, t, q, s, -, hk, -, rfl⟩
  · exact System.access_slots sys a
  · rfl
  · exact slots_set _ hk

/-! Runs of the system. -/

@[simp] theorem System.run_nil (sys : System) : System.run [] sys = .next sys := rfl

theorem System.run_cons {sys sys' : System} {ev : SystemEvent} (evs : List SystemEvent) (h : sys.step ev = .next sys') :
    System.run (ev :: evs) sys = System.run evs sys' := by simp only [System.run, h]

end Sys2Proof.Machine
end

