-- ==== Sys2Proof/Tests/Slice0.lean ====
section
/-! SUPPORT. The model's own tests: expected values from the rules of spec/ and the vectors of 95_test_vectors.md, and for
each statement with hypotheses a state that meets them all. -/

namespace Sys2Proof.Tests

open Sys2Proof Sys2Proof.Machine

/-! Well-formedness: for each check an ill-formed word or access that it refuses. -/

/-- D-CMD-8: bits 31:4 nonzero. -/
theorem test_wf_refuses_reserved_bits : reservedClear 0x00000012#32 = false := by decide

/-- D-CMD-7: the smallest reserved opcode. -/
theorem test_wf_refuses_reserved_opcode : opcodeDefined 0x00000004#32 = false := by decide

/-- D-CMD-9, D-CMD-10, D-CMD-7: refused by the check of the whole word. -/
theorem test_wf_refuses_words :
    commandWordWf 0x80000003#32 = false ∧ commandWordWf 0xFFFFFFFF#32 = false ∧ commandWordWf 0x0000000F#32 = false := by
  decide

/-- Rule R72: the four legal words are well-formed, and so is every command. -/
theorem test_wf_takes_legal_words :
    commandWordWf 0#32 = true ∧ commandWordWf 1#32 = true ∧ commandWordWf 2#32 = true ∧ commandWordWf 3#32 = true ∧
      Instr.nop.wf = true ∧ Instr.init.wf = true ∧ Instr.pushCp.wf = true ∧ Instr.final.wf = true := by decide

/-- Rule R57: only 32-bit accesses at offsets that are multiples of 4. -/
theorem test_access_admitted :
    accessAdmitted 4 0x3C#6 = true ∧ accessAdmitted 2 0x04#6 = false ∧ accessAdmitted 8 0x00#6 = false ∧
      accessAdmitted 4 0x05#6 = false ∧ accessAdmitted 4 0x3E#6 = false := by decide

/-! Decoding, on words written out from the fields of rule R70: 28 bits RSV, 4 bits OP. -/

theorem test_decode_nop : decode 0b0000000000000000000000000000_0000#32 = .command .nop := by decide
theorem test_decode_init : decode 0b0000000000000000000000000000_0001#32 = .command .init := by decide
theorem test_decode_pushCp : decode 0b0000000000000000000000000000_0010#32 = .command .pushCp := by decide
theorem test_decode_final : decode 0b0000000000000000000000000000_0011#32 = .command .final := by decide

/-- Rules R74, R75: every reserved opcode, and one word for each reserved bit at the ends of the field. -/
theorem test_decode_illegal :
    (List.range 16).map (fun v => decode (BitVec.ofNat 32 v) == .illegal .reservedOpcode) =
        [false, false, false, false, true, true, true, true, true, true, true, true, true, true, true, true] ∧
      decode 0b0000000000000000000000000001_0001#32 = .illegal .reservedBits ∧
      decode 0b1000000000000000000000000000_0011#32 = .illegal .reservedBits := by decide

/-- The table's words, and a longer "word" than rule R70 allows. -/
theorem test_decode_table_word :
    [0, 1, 2, 3, 4, 0x12].map (decodeTableWord 32) = [some .nop, some .init, some .pushCp, some .final, none, none] ∧
      decodeTableWord 64 0 = none := by decide

/-! Small states. -/

/-- A block in ABSORB right after INIT, with the given length, buffer index and flag. -/
def absorbing (l : BitVec 64) (p : BitVec 6) (ovf : Bool) : Block :=
  { Block.reset with h := iv, state := .absorb, l := l, p := p, ovf := ovf }

/-- A machine with that block and a command in flight. -/
def flying (b : Block) (i : Instr) (x : Word) : State :=
  { State.reset with blk := { b with busy := true, pend := some { op := i, operand := x } } }

/-- A machine whose host is about to make one access. -/
def hosting (b : Block) (op : HostOp) : State := { State.reset with blk := b, host := [op] }

/-- STATUS after one step; none where there is no next state. -/
def statusAfter (s : State) : Option Word :=
  match step s with
  | .next t => some t.blk.status
  | .fault _ => none
  | .refused _ => none

/-- Whatever a test reads off the block after one step. -/
def seen {α : Type} (f : Block → α) (s : State) : Option α :=
  match step s with
  | .next t => some (f t.blk)
  | .fault _ => none
  | .refused _ => none

/-! One step of each command. -/

/-- D-CMD-14: in ERROR a NOP changes nothing. -/
theorem test_nop_in_error :
    statusAfter (flying { absorbing 0#64 0#6 false with state := .error, errcode := 1#4, errval := 0x200000#32 } .nop 0#32)
      = some 0x016#32 := by decide

/-- D-CMD-17: NOP does not clear REJ. -/
theorem test_nop_keeps_rej :
    statusAfter (flying { absorbing 0#64 0#6 false with rej := true } .nop 0#32) = some 0x00A#32 := by decide

/-- D-CMD-12: INIT leaves ERROR and clears ERRVAL and the length. -/
theorem test_init_leaves_error :
    seen (fun b => (b.status, b.errval, b.l))
      (flying { absorbing 0x18#64 3#6 true with state := .error, errcode := 1#4, errval := 0x200000#32, rej := true }
        .init 7#32) = some (0x002#32, 0#32, 0#64) := by decide

/-- D-CMD-16: after INIT from DONE the digest reads 0; rule R161: H is IV. -/
theorem test_init_from_done :
    seen (fun b => (b.status, b.regRead 0x20#6, b.h[0], b.h[7]))
      (flying { absorbing 0x18#64 0#6 false with state := .done, h := Vector.replicate 8 5#32 } .init 0#32)
      = some (0x002#32, 0#32, 0x6a09e667#32, 0x5be0cd19#32) := by decide

/-- D-OVF-4: the two bytes of 0xE9 fill the block and carry the length over. -/
theorem test_pushCp_straddles_and_overflows :
    seen (fun b => (b.status, b.l, b.p, b.buf[62], b.buf[63], b.compressions))
      (flying (absorbing 0xFFFFFFFFFFFFFFF0#64 62#6 false) .pushCp 0xE9#32)
      = some (0x102#32, 0#64, 0#6, 0xC3#8, 0xA9#8, 1) := by decide +kernel

/-- D-OVF-2: an encoding error beats the overflow; nothing is absorbed. -/
theorem test_pushCp_out_of_range :
    seen (fun b => (b.status, b.errval, b.l, b.p)) (flying (absorbing 0#64 0#6 true) .pushCp 0x200000#32)
      = some (0x116#32, 0x200000#32, 0#64, 0#6) := by decide

/-- V1: FINAL right after INIT gives the digest of the empty message. -/
theorem test_final_empty_message :
    seen (fun b => (b.status, b.h)) (flying (absorbing 0#64 0#6 false) .final 0#32)
      = some (0x004#32,
          #v[0xe3b0c442, 0x98fc1c14, 0x9afbf4c8, 0x996fb924, 0x27ae41e4, 0x649b934c, 0xa495991b, 0x7852b855]) := by
  decide +kernel

/-- D-OVF-3: FINAL with OVF set. -/
theorem test_final_too_large :
    seen (fun b => (b.status, b.errval, b.p, b.h)) (flying (absorbing 0#64 0#6 true) .final 0#32)
      = some (0x126#32, 0#32, 0#6, iv) := by decide

/-! The host's accesses. -/

/-- D-CMD-1, D-CMD-2, D-CMD-4: from reset INIT and NOP are accepted, PUSH_CP is rejected. -/
theorem test_accept_from_reset :
    statusAfter (hosting Block.reset (.wr 0x00#6 1#32)) = some 0x001#32 ∧
      statusAfter (hosting Block.reset (.wr 0x00#6 2#32)) = some 0x008#32 ∧
      statusAfter (hosting Block.reset (.wr 0x00#6 0#32)) = some 0x001#32 := by decide

/-- D-CMD-6: a write to DATA does not reach the operand in flight. -/
theorem test_data_write_in_flight :
    seen (fun b => (b.data, b.pend))
      { flying (absorbing 0#64 0#6 false) .pushCp 0x41#32 with host := [.wr 0x04#6 0x42#32], sched := [.host] }
      = some (0x42#32, some ⟨.pushCp, 0x41#32⟩) := by decide

/-- D-CMD-19: reset with a command in flight. -/
theorem test_reset_in_flight :
    seen (fun b => (b.status, b.l, b.pend))
      { flying (absorbing 0x18#64 3#6 true) .final 0#32 with sched := [.reset] } = some (0#32, 0#64, none) := by decide

/-! The functions. -/

/-- D-ENC rows 3, 4, 6, 7, 9, 12, 13, 17, 18: both ends of each length class, a surrogate, the error. -/
theorem test_encode :
    utf8Encode 0x7F#32 = some [0x7f#8] ∧ utf8Encode 0x80#32 = some [0xc2#8, 0x80#8] ∧
      utf8Encode 0x7FF#32 = some [0xdf#8, 0xbf#8] ∧ utf8Encode 0x800#32 = some [0xe0#8, 0xa0#8, 0x80#8] ∧
      utf8Encode 0xD800#32 = some [0xed#8, 0xa0#8, 0x80#8] ∧ utf8Encode 0xFFFF#32 = some [0xef#8, 0xbf#8, 0xbf#8] ∧
      utf8Encode 0x10000#32 = some [0xf0#8, 0x90#8, 0x80#8, 0x80#8] ∧
      utf8Encode 0x1FFFFF#32 = some [0xf7#8, 0xbf#8, 0xbf#8, 0xbf#8] ∧ utf8Encode 0x200000#32 = none := by decide

/-- D-PAD: the numbers of blocks of rows 5 to 10. -/
theorem test_block_counts :
    [55, 56, 63, 64, 119, 120].map (fun m => (parseBlocks (padBytes (List.replicate m 0x61#8))).length)
      = [1, 2, 2, 2, 2, 3] := by decide +kernel

/-- D-PAD-11: the words of the padded "abc". -/
theorem test_parse_abc :
    parseBlocks (padBytes [0x61#8, 0x62#8, 0x63#8])
      = [#v[0x61626380, 0, 0, 0, 0, 0, 0, 0, 0, 0, 0, 0, 0, 0, 0, 0x18]] := by decide +kernel

/-- D-FN rows. -/
theorem test_word_functions :
    rotr 0x12345678#32 7 = 0xF02468AC#32 ∧ rotr 0x12345678#32 31 = 0x2468ACF0#32 ∧
      sigma0 0x12345678#32 = 0xE7FCE6EE#32 ∧ sigma1 0x12345678#32 = 0xA1F78649#32 ∧
      bigSigma0 0x12345678#32 = 0x66146474#32 ∧ bigSigma1 0x12345678#32 = 0x3561ABDA#32 ∧
      ch 0xFF00FF00#32 0x12345678#32 0x9ABCDEF0#32 = 0x12BC56F0#32 ∧
      maj 0xF0F0F0F0#32 0xFF00FF00#32 0xFFFF0000#32 = 0xFFF0F000#32 := by decide

/-- D-CMP-1: the last schedule words of the block of "abc". -/
theorem test_schedule_abc :
    ((parseBlocks (padBytes [0x61#8, 0x62#8, 0x63#8])).map fun m => (schedule m).drop 61)
      = [[0x668b2ff8#32, 0xeeaba2cc#32, 0x12b1edeb#32]] := by decide +kernel

/-- D-CMP-3: the compression of the zero block from the zero state. -/
theorem test_compress_zero :
    compress (Vector.replicate 8 0#32) (Vector.replicate 16 0#32)
      = #v[0x7ca51614, 0x425c3ba8, 0xce54dd2f, 0xc2020ae7, 0xb6e574d1, 0x98136d0f, 0xae7e26cc, 0xbf0be7a6] := by
  decide +kernel

/-- V2: the digest of "abc" and its rendering by the host. -/
theorem test_digest_abc :
    String.ofList (hexDigest (digestOf [0x61#8, 0x62#8, 0x63#8]))
      = "ba7816bf8f01cfea414140de5dae2223b00361a396177a9cb410ff61f20015ad" := by decide +kernel

/-! Several instances. -/

/-- D-CMD-1 in the second of two instances, and then a rejected PUSH_CP in the first (D-CMD-2): each shows its own STATUS
only (rule R215). -/
theorem test_two_instances :
    (match System.run [.access ⟨64, 4, .write 1#32⟩, .turn 1 .engine, .access ⟨0, 4, .write 2#32⟩] (System.reset [0, 1]) with
      | .next sys => sys.insts.map fun q => q.blk.status
      | .fault _ => []
      | .refused _ => []) = [0x008#32, 0x002#32] := by decide

/-! Witnesses: for each statement with hypotheses, a concrete input that meets all of them together; for one with several
clauses, one at a boundary of each. -/

/-- DecodeByFields: a word for each clause, and an illegal one. -/
theorem witness_DecodeByFields :
    (0x00000010#32).extractLsb 31 4 ≠ 0#28 ∧
      ((0x0000000F#32).extractLsb 31 4 = 0#28 ∧ 4 ≤ ((0x0000000F#32).extractLsb 3 0).toNat) ∧
      ((0x00000004#32).extractLsb 31 4 = 0#28 ∧ 4 ≤ ((0x00000004#32).extractLsb 3 0).toNat) ∧
      ((0x00000003#32).extractLsb 31 4 = 0#28 ∧ (0x00000003#32).extractLsb 3 0 = 3#4) ∧
      ((0x00000002#32).extractLsb 31 4 = 0#28 ∧ (0x00000002#32).extractLsb 3 0 = 2#4) ∧
      ((0x00000001#32).extractLsb 31 4 = 0#28 ∧ (0x00000001#32).extractLsb 3 0 = 1#4) ∧
      ((0x00000000#32).extractLsb 31 4 = 0#28 ∧ (0x00000000#32).extractLsb 3 0 = 0#4) := by decide

/-- AcceptanceTable: the smallest illegal word. -/
theorem witness_AcceptanceTable : 3 < (0x00000004#32).toNat ∧ ¬ 3 < (0x00000003#32).toNat := by decide

/-- InFlightViewIsTheOldOne: a PUSH_CP in ABSORB and an INIT after reset. -/
theorem witness_InFlightViewIsTheOldOne :
    ((absorbing 0#64 0#6 false).busy = false ∧
        (Instr.pushCp = .nop ∨ Instr.pushCp = .init ∨ (absorbing 0#64 0#6 false).state = .absorb)) ∧
      (Block.reset.busy = false ∧ (Instr.init = .nop ∨ Instr.init = .init ∨ Block.reset.state = .absorb)) ∧
      Reg.data ≠ Reg.status := by decide

/-- HostCannotDisturbTheCommandInFlight: a rejected command write while a PUSH_CP is in flight (D-CMD-5). -/
theorem witness_HostCannotDisturbTheCommandInFlight :
    let s : State := { flying (absorbing 0#64 0#6 false) .pushCp 0x41#32 with host := [.wr 0x00#6 3#32], sched := [.host] }
    s.turn = .host ∧ s.blk.busy = true ∧ ∃ t, step s = .next t := ⟨by decide, by decide, _, step_host rfl⟩

/-- InitStartsAHash: INIT answers a next state. -/
theorem witness_InitStartsAHash : ∃ t, exec .init (flying Block.reset .init 0#32) = .next t := ⟨_, rfl⟩

/-- InitForgetsTheState: two machines that differ in everything the statement lets differ. -/
theorem witness_InitForgetsTheState :
    let s := flying (absorbing 0#64 0#6 false) .init 0#32
    let t := flying { absorbing 0x18#64 3#6 true with state := .done, rej := true } .init 0#32
    s.blk.data = t.blk.data ∧ s.host = t.host ∧ s.sched = t.sched ∧ s.replies = t.replies ∧ s.blk ≠ t.blk := by
  decide +kernel

/-- ErrorEntryWritesOnlyTheDetail: the smallest code point out of range, and OVF. -/
theorem witness_ErrorEntryWritesOnlyTheDetail :
    ((flying (absorbing 0#64 0#6 false) .pushCp 0x200000#32).blk.pend = some ⟨.pushCp, 0x200000#32⟩ ∧
        0x1FFFFF < (0x200000#32).toNat) ∧
      (flying (absorbing 0#64 0#6 true) .final 0#32).blk.ovf = true := by decide

/-- PushCpAbsorbsTheUnit and PushCpFrame: the largest code point, at the end of a block and at the end of the counter; and
the smallest, in an empty block. -/
theorem witness_PushCpAbsorbsTheUnit :
    let s := flying (absorbing 0xFFFFFFFFFFFFFFF8#64 63#6 false) .pushCp 0x1FFFFF#32
    let r := flying (absorbing 0#64 0#6 false) .pushCp 0#32
    (s.blk.pend = some ⟨.pushCp, 0x1FFFFF#32⟩ ∧ (0x1FFFFF#32).toNat ≤ 0x1FFFFF) ∧
      (r.blk.pend = some ⟨.pushCp, 0#32⟩ ∧ (0#32).toNat ≤ 0x1FFFFF ∧ r.blk.p.toNat + (utf8Bytes 0#32).length < 64) ∧
      ¬ s.blk.p.toNat + (utf8Bytes 0x1FFFFF#32).length < 64 := by decide

theorem witness_PushCpFrame :
    let s := flying (absorbing 0x1F8#64 63#6 false) .pushCp 0x1FFFFF#32
    s.blk.pend = some ⟨.pushCp, 0x1FFFFF#32⟩ ∧ (0x1FFFFF#32).toNat ≤ 0x1FFFFF ∧ ∃ t, exec .pushCp s = .next t :=
  ⟨by decide, by decide, _, rfl⟩

/-- FinalPadsAndFinishes: on both sides of the boundary between one block and two. -/
theorem witness_FinalPadsAndFinishes :
    let s := flying (absorbing 0x1B8#64 55#6 false) .final 0#32
    let r := flying (absorbing 0x1C0#64 56#6 false) .final 0#32
    (s.blk.ovf = false ∧ s.blk.p.toNat ≤ 55) ∧ (r.blk.ovf = false ∧ ¬ r.blk.p.toNat ≤ 55) := by decide

/-- EveryCommandFrame: a command that is not INIT, and OVF set. -/
theorem witness_EveryCommandFrame :
    Instr.final ≠ .init ∧ (flying (absorbing 0#64 0#6 true) .final 0#32).blk.ovf = true := by decide

/-- CompletionRunsTheLatchedCommand: a command in flight, and none. -/
theorem witness_CompletionRunsTheLatchedCommand :
    let s := flying (absorbing 0#64 0#6 false) .pushCp 0x41#32
    let r : State := { State.reset with sched := [.engine] }
    (s.turn = .engine ∧ s.blk.busy = true ∧ s.blk.pend = some ⟨.pushCp, 0x41#32⟩) ∧
      (r.turn = .engine ∧ r.blk.busy = false) := by decide

/-- StepRunsTheDecodedCommand: the first and the last command word. -/
theorem witness_StepRunsTheDecodedCommand :
    decodeTableWord 32 0 = some .nop ∧ decodeTableWord 32 3 = some .final := by decide

/-- WrittenCommandIsCompleted: a PUSH_CP about to be written in ABSORB. -/
theorem witness_WrittenCommandIsCompleted :
    let s := hosting (absorbing 0#64 0#6 false) (.wr 0x00#6 2#32)
    s.sched = [] ∧ s.blk.busy = false ∧ s.host = .wr 0x00#6 2#32 :: [] ∧ decode 2#32 = .command .pushCp ∧
      legalIn .pushCp s.blk.state = true := by decide

/-- EveryAcceptedCommandCompletes: a command in flight under a schedule in which the host moves first. -/
theorem witness_EveryAcceptedCommandCompletes :
    let s : State := { flying (absorbing 0#64 0#6 false) .final 0#32 with sched := [.host, .host] }
    s.blk.busy = true ∧ s.blk.pend = some ⟨.final, 0#32⟩ ∧ Turn.reset ∉ s.sched := by decide

/-- RegReadTable: a read of the last offset of the window. -/
theorem witness_RegReadTable :
    let s := hosting Block.reset (.rd 0x3C#6)
    s.turn = .host ∧ s.host = .rd 0x3C#6 :: [] ∧ (0x3C#6).extractLsb 1 0 = 0#2 := by decide

/-- RegWriteTable: the last offset, and the first after DATA. -/
theorem witness_RegWriteTable :
    ((0x3C#6).extractLsb 1 0 = 0#2 ∧ (0x3C#6) ≠ 0x00#6 ∧ (0x3C#6) ≠ 0x04#6) ∧
      ((0x08#6).extractLsb 1 0 = 0#2 ∧ (0x08#6) ≠ 0x00#6 ∧ (0x08#6) ≠ 0x04#6) := by decide

/-- DigestOnlyWhenDone: one state in DONE and one not. -/
theorem witness_DigestOnlyWhenDone :
    ({ Block.reset with state := .done } : Block).state = .done ∧ Block.reset.state ≠ .done := by decide

/-- WindowDecoding: the first address after the window. -/
theorem witness_WindowDecoding :
    let a : BusAccess := ⟨Config.base + 0x40, 4, .read⟩
    let s := hosting Block.reset (.bus a)
    s.turn = .host ∧ s.host = .bus a :: [] ∧ (a.addr < Config.base ∨ Config.base + 0x3F < a.addr) :=
  ⟨rfl, rfl, .inr (Nat.add_lt_add_left (by decide) _)⟩

/-- UnadmittedAccessChangesNothing: a byte write at an aligned offset, and a word read at an unaligned one. -/
theorem witness_UnadmittedAccessChangesNothing :
    let a : BusAccess := ⟨Config.base + (0x00#6).toNat, 1, .write 1#32⟩
    let a' : BusAccess := ⟨Config.base + (0x3F#6).toNat, 4, .read⟩
    ((hosting Block.reset (.bus a)).turn = .host ∧ (hosting Block.reset (.bus a)).host = .bus a :: [] ∧
        a.addr = Config.base + (0x00#6).toNat ∧ (a.bytes ≠ 4 ∨ (0x00#6).extractLsb 1 0 ≠ 0#2)) ∧
      ((hosting Block.reset (.bus a')).turn = .host ∧ (hosting Block.reset (.bus a')).host = .bus a' :: [] ∧
        a'.addr = Config.base + (0x3F#6).toNat ∧ (a'.bytes ≠ 4 ∨ (0x3F#6).extractLsb 1 0 ≠ 0#2)) :=
  ⟨⟨rfl, rfl, rfl, .inl (show (1 : Nat) ≠ 4 by decide)⟩, rfl, rfl, rfl, .inr (by decide)⟩

/-- AdmittedBusAccess: a read and a write of the last register. -/
theorem witness_AdmittedBusAccess :
    ((hosting Block.reset (.rd 0x3C#6)).turn = .host ∧ (0x3C#6).extractLsb 1 0 = 0#2 ∧
        (hosting Block.reset (.rd 0x3C#6)).host = .rd 0x3C#6 :: []) ∧
      (hosting Block.reset (.wr 0x00#6 1#32)).turn = .host ∧ (0x00#6).extractLsb 1 0 = 0#2 ∧
        (hosting Block.reset (.wr 0x00#6 1#32)).host = .wr 0x00#6 1#32 :: [] := by decide

/-- PollWaitsForBusy: a poll while a command is in flight. -/
theorem witness_PollWaitsForBusy :
    let s : State := { flying Block.reset .init 0#32 with host := [.poll], sched := [.host] }
    s.turn = .host ∧ s.host = .poll :: [] ∧ s.blk.busy = true := by decide

/-- ResetAbandonsTheCommand: a reset while a FINAL is in flight. -/
theorem witness_ResetAbandonsTheCommand :
    let s : State := { flying (absorbing 0x18#64 3#6 false) .final 0#32 with sched := [.reset] }
    s.turn = .reset ∧ s.blk.busy = true := by decide

/-- A state in ERROR that meets the invariant. -/
def inError : Block :=
  { absorbing 0#64 0#6 false with state := .error, errcode := 1#4, errval := 0x200000#32 }

theorem inError_inv : inError.Inv where
  rule37 :=
    { busy_iff := by decide, absorb_p := by decide, done_p := by decide, l_low := by decide, err_iff := by decide,
      uninit_zero := by decide }
  pendLegal := fun _ h => nomatch h
  detail := .inr (.inl ⟨by decide, by decide⟩)
  done_ovf := by decide

/-- A state in DONE that meets the invariant. -/
def inDone : Block := { absorbing 0x18#64 0#6 false with state := .done }

theorem inDone_inv : inDone.Inv where
  rule37 :=
    { busy_iff := by decide, absorb_p := by decide, done_p := by decide, l_low := by decide, err_iff := by decide,
      uninit_zero := by decide }
  pendLegal := fun _ h => nomatch h
  detail := .inl ⟨by decide, by decide⟩
  done_ovf := by decide

/-- EveryStepKeepsTheInvariant and NoStepStopsUnderTheInvariant: in ERROR, with a rejected command write to come. -/
theorem witness_EveryStepKeepsTheInvariant :
    (hosting inError (.wr 0x00#6 2#32)).blk.Inv ∧ ∃ t, step (hosting inError (.wr 0x00#6 2#32)) = .next t :=
  ⟨inError_inv, _, step_host rfl⟩

/-- ReachableStatesMeetTheInvariants: two steps of a run that begins a hash. -/
theorem witness_ReachableStatesMeetTheInvariants :
    (match run 2 { State.reset with host := [.wr 0x00#6 1#32], sched := [.host, .engine] } with
      | .next t => t.blk.state
      | .fault _ => .uninit
      | .refused _ => .uninit) = .absorb := by decide

/-- ErrorIsLeftOnlyByInitOrReset: the host's turn, INIT's completion and a reset, all in ERROR. -/
theorem witness_ErrorIsLeftOnlyByInitOrReset :
    ((hosting inError (.wr 0x00#6 2#32)).blk.Inv ∧ (hosting inError (.wr 0x00#6 2#32)).blk.state = .error ∧
        ∃ t, step (hosting inError (.wr 0x00#6 2#32)) = .next t) ∧
      Completes (flying inError .init 0#32) .init ∧
      ({ State.reset with blk := inError, sched := [.reset] } : State).turn = .reset :=
  ⟨⟨inError_inv, rfl, _, step_host rfl⟩, ⟨rfl, rfl⟩, rfl⟩

/-- DigestStaysUntilInitOrReset: a read of the digest in DONE. -/
theorem witness_DigestStaysUntilInitOrReset :
    (hosting inDone (.rd 0x20#6)).blk.Inv ∧ (hosting inDone (.rd 0x20#6)).blk.state = .done ∧
      ∃ t, step (hosting inDone (.rd 0x20#6)) = .next t := ⟨inDone_inv, rfl, _, step_host rfl⟩

/-- WritersOfTheFlags and WritersOfTheDataRegisters: a PUSH_CP that changes ERRCODE, and one that changes BUF. -/
theorem witness_WritersOfTheFlags :
    let s := flying (absorbing 0#64 0#6 false) .pushCp 0x200000#32
    (∃ t, step s = .next t ∧ t.blk.errcode ≠ s.blk.errcode) ∧ s.turn ≠ .reset ∧ ¬ Completes s .init :=
  ⟨⟨_, rfl, by decide⟩, by decide, fun h => absurd h.2 (by decide)⟩

theorem witness_WritersOfTheDataRegisters :
    let s := flying (absorbing 0#64 0#6 false) .pushCp 0x41#32
    (∃ t, step s = .next t ∧ t.blk.buf ≠ s.blk.buf) ∧ s.turn ≠ .reset :=
  ⟨⟨_, rfl, fun h => absurd (congrArg (fun v => v[0]) h) (by decide)⟩, by decide⟩

/-- UnspecifiedFieldsAreNeverObserved: two machines in ABSORB with different bytes above P. -/
theorem witness_UnspecifiedFieldsAreNeverObserved :
    let s := flying (absorbing 0#64 0#6 false) .final 0#32
    let t := flying { absorbing 0#64 0#6 false with buf := Vector.replicate 64 0xFF#8 } .final 0#32
    s.Agree t ∧ s.blk.PendLegal ∧ s.blk.buf ≠ t.blk.buf ∧ ∃ s', step s = .next s' :=
  ⟨⟨⟨rfl, rfl, rfl, rfl, rfl, rfl, rfl, rfl, rfl, rfl, fun i h => absurd h (Nat.not_lt_zero i), fun _ => rfl⟩, rfl, rfl,
    rfl⟩, fun _ h => (Option.some.inj h) ▸ rfl, fun h => absurd (congrArg (fun v => v[0]) h) (by decide), _, rfl⟩

/-- EncoderLengthClasses, EncoderUnitInvariants, EncoderPayload: a unit of each length, at both ends of its class. -/
theorem witness_EncoderLengthClasses :
    ((utf8Encode 0#32).isSome = true ∧ (0#32).toNat ≤ 0x7F) ∧
      ((utf8Encode 0x80#32).isSome = true ∧ 0x80 ≤ (0x80#32).toNat ∧ (0x80#32).toNat ≤ 0x7FF) ∧
      ((utf8Encode 0xFFFF#32).isSome = true ∧ 0x800 ≤ (0xFFFF#32).toNat ∧ (0xFFFF#32).toNat ≤ 0xFFFF) ∧
      ((utf8Encode 0x10000#32).isSome = true ∧ 0x10000 ≤ (0x10000#32).toNat) := by decide

theorem witness_EncoderUnitInvariants :
    utf8Encode 0x7F#32 = some [0x7f#8] ∧ utf8Encode 0x1F600#32 = some [0xf0#8, 0x9f#8, 0x98#8, 0x80#8] := by decide

theorem witness_EncoderPayload :
    utf8Encode 0xE9#32 = some [0xc3#8, 0xa9#8] ∧ utf8Encode 0x20AC#32 = some [0xe2#8, 0x82#8, 0xac#8] := by decide

/-- MessageDeterminesTheCodePoints: a unit that is a prefix of itself, and a sequence at the limit. -/
theorem witness_MessageDeterminesTheCodePoints :
    (utf8Encode 0x41#32 = some [0x41#8] ∧ [0x41#8] <+: [0x41#8]) ∧
      (∀ c ∈ [0#32, 0x1FFFFF#32], c.toNat ≤ 0x1FFFFF) ∧
      messageOf [0#32, 0x1FFFFF#32] = messageOf [0#32, 0x1FFFFF#32] := ⟨by decide, by simp, rfl⟩

/-- PushesAbsorbTheMessage and IncrementalFormIsTheDocuments: one unit of each length, and none. -/
theorem witness_PushesAbsorbTheMessage :
    (∀ c ∈ [0x61#32, 0xE9#32, 0x20AC#32, 0x1FFFFF#32], c.toNat ≤ 0x1FFFFF) ∧
      8 * (messageOf [0x61#32, 0xE9#32, 0x20AC#32, 0x1FFFFF#32]).length < 2 ^ 64 := by
  rw [show (messageOf [0x61#32, 0xE9#32, 0x20AC#32, 0x1FFFFF#32]).length = 10 by decide]
  exact ⟨by simp, by decide⟩

theorem witness_IncrementalFormIsTheDocuments :
    ((∀ c ∈ ([] : List Word), c.toNat ≤ 0x1FFFFF) ∧ 8 * (messageOf []).length < 2 ^ 64) ∧
      (1 < (List.replicate 129 0x61#8).length / 64 ∧ 0 < 4 ∧ 3 < 4) :=
  ⟨⟨nofun, Nat.two_pow_pos 64⟩, by simp⟩

/-- HashProgramGivesTheDocumentsResult: from ERROR, a text with a code point out of range, under a schedule. -/
theorem witness_HashProgramGivesTheDocumentsResult :
    let s : State :=
      { blk := inError, host := pseudoHash [0x41#32, 0x200000#32], sched := [.engine, .host], replies := [] }
    s.blk.busy = false ∧ s.host = pseudoHash [0x41#32, 0x200000#32] ∧ Turn.reset ∉ s.sched :=
  ⟨rfl, rfl, by decide⟩

/-- ScheduleRecurrence and the bitwise statements: the ends of their ranges. -/
theorem witness_ScheduleRecurrence : (16 ≤ 16 ∧ 16 ≤ 63) ∧ (16 ≤ 63 ∧ 63 ≤ 63) := by decide

theorem witness_WordFunctionsBitwise : (1 ≤ 1 ∧ 1 ≤ 31 ∧ 0 < 32) ∧ (1 ≤ 31 ∧ 31 ≤ 31 ∧ 31 < 32) := by decide

theorem witness_ChSelectsAndMajIsTheMajority : 0 < 32 ∧ 31 < 32 := by decide

/-- PaddingIsMinimal: with nothing before it the padding has 447 zero bits, so its clauses over j < k and i < 64 have
instances. -/
theorem witness_PaddingIsMinimal : ((447 - (([] : List Bool).length : Int)) % 512).toNat = 447 ∧ 446 < 447 ∧ 63 < 64 := by
  decide

/-- ConstantsAreRootFractions and CompressIsTheSixtyFourRounds: the ends of their ranges. -/
theorem witness_ConstantsAreRootFractions : 7 < 8 ∧ 63 < 64 := by decide

theorem witness_CompressIsTheSixtyFourRounds : 0 < 64 ∧ 63 < 64 := by decide

/-- HexRenderingIsFaithful: the ends of its range. -/
theorem witness_HexRenderingIsFaithful :
    (0 < 8 ∧ 7 < 8) ∧ hexDigest (Vector.replicate 8 0#32) = hexDigest (Vector.replicate 8 0#32) := ⟨by decide, rfl⟩

/-- InstancesShareNothing: two instances, a turn of the first, a turn of an instance that is not there, an access at each
end of the second's window, and an access in no window. -/
theorem witness_InstancesShareNothing :
    let sys := System.reset [0, 1]
    let next (ev : SystemEvent) := ∃ sys', sys.step ev = .next sys'
    sys.wf = true ∧
      (next (.turn 0 .reset) ∧ sys.insts[0]? = some ⟨0, Block.reset⟩) ∧
      (next (.turn 2 .engine) ∧ sys.insts[2]? = none) ∧
      (next (.access ⟨64, 4, .write 1#32⟩) ∧ sys.insts[1]? = some ⟨1, Block.reset⟩ ∧
        64 = Config.baseOf 1 + (0x00#6).toNat) ∧
      (next (.access ⟨127, 1, .read⟩) ∧ 127 = Config.baseOf 1 + (0x3F#6).toNat) ∧
      (next (.access ⟨128, 4, .read⟩) ∧
        ∀ q ∈ sys.insts, 128 < Config.baseOf q.slot ∨ Config.baseOf q.slot + 0x3F < 128) :=
  ⟨by decide, ⟨⟨_, rfl⟩, rfl⟩, ⟨⟨_, rfl⟩, rfl⟩, ⟨⟨_, rfl⟩, rfl, rfl⟩, ⟨⟨_, rfl⟩, rfl⟩, ⟨_, rfl⟩, by decide⟩

/-- InstancesStartInTheResetState: one instance, and three in no order. -/
theorem witness_InstancesStartInTheResetState :
    (([0] : List Nat) ≠ [] ∧ ([0] : List Nat).Nodup) ∧ (([5, 0, 2] : List Nat) ≠ [] ∧ ([5, 0, 2] : List Nat).Nodup) := by
  decide

end Sys2Proof.Tests
end

namespace Sys2Proof.Machine

/-! The invariant of every run, kept by each agent's move (10_state.md rule R37; log entry 17). -/

/-- The invariant looks at neither DATA nor REJ, and at PEND and BUSY only for R37 (a) and the legality of what is
latched. -/
theorem Block.Inv.withPend {b : Block} (hb : b.Inv) {q : Option Pending} {u : Bool} (d : Word) (r : Bool)
    (hu : u = false ↔ q = none) (hq : ∀ c, q = some c → legalIn c.op b.state = true) :
    ({ b with data := d, rej := r, pend := q, busy := u } : Block).Inv where
  rule37 :=
    { busy_iff := hu
      absorb_p := hb.rule37.absorb_p
      done_p := hb.rule37.done_p
      l_low := hb.rule37.l_low
      err_iff := hb.rule37.err_iff
      uninit_zero := hb.rule37.uninit_zero }
  pendLegal := hq
  detail := hb.detail
  done_ovf := hb.done_ovf

/-- Outside ERROR there is no error detail (10_state.md rules R32, R33). -/
theorem Block.Inv.no_detail {b : Block} (hb : b.Inv) (hs : b.state ≠ .error) : b.errcode = 0#4 ∧ b.errval = 0#32 := by
  have hc : b.errcode = 0#4 := by
    by_contra hc
    exact hs (hb.rule37.err_iff.mp hc)
  rcases hb.detail with h | ⟨h, -⟩ | ⟨h, -⟩
  · exact h
  · rw [hc] at h; exact absurd h (by decide)
  · rw [hc] at h; exact absurd h (by decide)

/-- A host turn keeps the invariant: of the fields it is about it writes BUSY and PEND alone, and latches only a legal
command (40_commands.md rule R91). -/
theorem State.hostTurn_inv (s : State) (hs : s.blk.Inv) : s.hostTurn.blk.Inv := by
  rcases s.hostTurn_cases with h | ⟨v, h⟩ | h | ⟨i, -, hl, h⟩ <;> rw [h]
  · exact hs
  · exact hs.withPend v _ hs.rule37.busy_iff hs.pendLegal
  · exact hs.withPend _ true hs.rule37.busy_iff hs.pendLegal
  · refine hs.withPend _ _ (by simp) fun c hc => ?_
    rw [← Option.some.inj hc]; exact hl

/-- Reset sets up the invariant from any block (10_state.md rule R46). -/
theorem Block.afterReset_inv (b : Block) : b.afterReset.Inv where
  rule37 := { busy_iff := by simp, absorb_p := by simp, done_p := by simp, l_low := by simp, err_iff := by simp,
              uninit_zero := by simp }
  pendLegal := by simp [Block.PendLegal]
  detail := .inl ⟨rfl, rfl⟩
  done_ovf := by simp

/-! The completions (40_commands.md rule R93). -/

/-- The end of a completion that did nothing else (40_commands.md rule R100). -/
theorem Block.Inv.finish {b : Block} (hb : b.Inv) : b.finish.Inv := hb.withPend _ _ (by simp) (by simp)

/-- INIT sets up the invariant from any block (40_commands.md rule R101). -/
theorem Block.initEffect_finish_inv (b : Block) : b.initEffect.finish.Inv where
  rule37 := { busy_iff := by simp, absorb_p := by simp, done_p := by simp, l_low := by simp, err_iff := by simp,
              uninit_zero := by simp }
  pendLegal := by simp [Block.PendLegal]
  detail := .inl ⟨rfl, rfl⟩
  done_ovf := by simp

/-- The error entry keeps the invariant for the detail of an error the block takes (60_exceptions.md rules R201, R202,
R203). -/
theorem Block.Inv.raise_finish {b : Block} (hb : b.Inv) {e : ErrorKind} {v : Word}
    (hd : e.code = 1#4 ∧ maxCodePoint < v.toNat ∨ e.code = 2#4 ∧ v = 0#32 ∧ b.ovf = true) :
    (b.raise e v).finish.Inv where
  rule37 :=
    { busy_iff := by simp
      absorb_p := by simp
      done_p := by simp
      l_low := hb.rule37.l_low
      err_iff := by
        have hc : e.code ≠ 0#4 := by cases e <;> decide
        simp [hc]
      uninit_zero := by simp }
  pendLegal := by simp [Block.PendLegal]
  detail := .inr hd
  done_ovf := by simp

/-- Where P is the byte count of L, it is so again after `n` more bytes, and L is still a whole number of bytes
(10_state.md rule R37 (b), (d)). -/
theorem byteCount_add {p : BitVec 6} {l : BitVec 64} (n : Nat) (hl : l.extractLsb 2 0 = 0#3)
    (hp : p = l.extractLsb 8 3) :
    (l + BitVec.ofNat 64 (8 * n)).extractLsb 2 0 = 0#3 ∧
      p + BitVec.ofNat 6 n = (l + BitVec.ofNat 64 (8 * n)).extractLsb 8 3 := by
  have hl' := congrArg BitVec.toNat hl
  have hp' := congrArg BitVec.toNat hp
  simp only [BitVec.extractLsb_toNat, BitVec.toNat_ofNat, Nat.shiftRight_eq_div_pow] at hl' hp'
  constructor <;> apply BitVec.eq_of_toNat_eq <;>
    simp only [BitVec.extractLsb_toNat, BitVec.toNat_add, BitVec.toNat_ofNat, Nat.shiftRight_eq_div_pow] <;> omega

/-- Absorbing bytes in ABSORB keeps the invariant (42_padding_parsing.md rule R140). -/
theorem Block.Inv.absorbAll_finish {b : Block} (hb : b.Inv) (hs : b.state = .absorb) (xs : List Byte) :
    (b.absorbAll xs).finish.Inv := by
  obtain ⟨hlow, hp⟩ := byteCount_add xs.length hb.rule37.l_low (hb.rule37.absorb_p hs)
  obtain ⟨hcode, hval⟩ := hb.no_detail (by simp [hs])
  exact {
    rule37 :=
      { busy_iff := by simp
        absorb_p := fun _ => by simpa [Block.absorbAll_l, Block.absorbAll_p] using hp
        done_p := by simp [hs]
        l_low := by simpa [Block.absorbAll_l] using hlow
        err_iff := by simp [hs, hcode]
        uninit_zero := by simp [hs] }
    pendLegal := by simp [Block.PendLegal]
    detail := .inl (by simp [hcode, hval])
    done_ovf := by simp [hs] }

/-- The padding of FINAL in ABSORB keeps the invariant (42_padding_parsing.md rules R145, R147). -/
theorem Block.Inv.padding_finish {b : Block} (hb : b.Inv) (hs : b.state = .absorb) (ho : b.ovf = false) :
    ({ b.appendAll b.padding with state := .done } : Block).finish.Inv := by
  obtain ⟨hcode, hval⟩ := hb.no_detail (by simp [hs])
  exact {
    rule37 :=
      { busy_iff := by simp
        absorb_p := by simp
        done_p := fun _ => b.appendAll_padding_p
        l_low := by simpa using hb.rule37.l_low
        err_iff := by simp [hcode]
        uninit_zero := by simp }
    pendLegal := by simp [Block.PendLegal]
    detail := .inl (by simp [hcode, hval])
    done_ovf := fun _ => by simpa using ho }

/-- A command that completes in a state it is legal in keeps the invariant. -/
theorem Block.Inv.effectOf_finish {b : Block} (hb : b.Inv) {i : Instr} (x : Word) (hl : legalIn i b.state = true) :
    (effectOf i x b).finish.Inv := by
  cases i with
  | nop => exact hb.finish
  | init => exact b.initEffect_finish_inv
  | pushCp =>
    have hs : b.state = .absorb := of_decide_eq_true hl
    show (b.pushEffect x).finish.Inv
    rcases Nat.lt_or_ge maxCodePoint x.toNat with hx | hx
    · rw [b.pushEffect_of_gt hx]; exact hb.raise_finish (.inl ⟨rfl, hx⟩)
    · rw [b.pushEffect_of_le hx]; exact hb.absorbAll_finish hs _
  | final =>
    have hs : b.state = .absorb := of_decide_eq_true hl
    show b.finalEffect.finish.Inv
    rcases ho : b.ovf with _ | _
    · rw [Block.finalEffect_of_not_ovf ho]; exact hb.padding_finish hs ho
    · rw [Block.finalEffect_of_ovf ho]; exact hb.raise_finish (.inr ⟨rfl, rfl, ho⟩)

/-- One step of any agent keeps the invariant (10_state.md rule R37). -/
theorem Block.Inv.step {s t : State} (hs : s.blk.Inv) (h : step s = .next t) : t.blk.Inv := by
  rcases step_cases h with ⟨-, rfl⟩ | ⟨-, rfl⟩ | ⟨-, -, rfl⟩ | ⟨i, x, -, -, hp, rfl⟩
  · exact s.popTurn.hostTurn_inv hs
  · exact s.blk.afterReset_inv
  · exact hs
  · exact hs.effectOf_finish _ (hs.pendLegal _ hp)

/-- A run of one more step makes a step to a next state and goes on from there. -/
theorem run_succ_next {n : Nat} {s t : State} (h : run (n + 1) s = .next t) :
    ∃ u, step s = .next u ∧ run n u = .next t := by
  rcases e : step s with u | r | r
  · exact ⟨u, rfl, by rwa [run_succ e] at h⟩
  · have e' : core.step s = .fault r := e
    simp [run, Host.Core.run, e'] at h
  · have e' : core.step s = .refused r := e
    simp [run, Host.Core.run, e'] at h

/-- What every step keeps, every run keeps. -/
theorem run_keeps {P : State → Prop} (keep : ∀ s t, P s → step s = .next t → P t) {n : Nat} {s t : State} (hs : P s)
    (h : run n s = .next t) : P t := by
  induction n generalizing s with
  | zero => cases h; exact hs
  | succ n ih =>
    obtain ⟨u, hu, hn⟩ := run_succ_next h
    exact ih (keep s u hs hu) hn

/-- Settles O30: the case split over the agents is `Block.Inv.step`. -/
theorem everyStepKeepsTheInvariant : Obligations.EveryStepKeepsTheInvariant := fun _ _ hs h => hs.step h

/-- Settles O29: the block of `State.reset` is one a reset leaves behind. -/
theorem invariantAtReset : Obligations.InvariantAtReset := Block.reset.afterReset_inv

/-- Settles O31: the invariant holds at reset and every step keeps it. -/
theorem reachableStatesMeetTheInvariants : Obligations.ReachableStatesMeetTheInvariants := by
  intro n host sched t h
  have hi : Block.reset.Inv := invariantAtReset
  exact (run_keeps (P := fun s => s.blk.Inv) (fun _ _ => Block.Inv.step) hi h).rule37

/-! Agreement on the specified fields, kept by each agent's move (93_implementation_defined.md U1, U2; 10_state.md rules
R25, R35, R46). -/

/-- The valid bytes are the buffer below P (10_state.md rule R25). -/
theorem Block.valid_getElem? (b : Block) {i : Nat} (h : i < b.p.toNat) : b.valid[i]? = b.buf[i]? := by
  rw [Block.valid, List.getElem?_take_of_lt h, Vector.getElem?_toList]

/-- Blocks with the same P have the same valid bytes exactly when their buffers are the same below it. -/
theorem Block.valid_eq_iff {b c : Block} (hp : b.p = c.p) :
    b.valid = c.valid ↔ ∀ i, i < b.p.toNat → b.buf[i]? = c.buf[i]? := by
  constructor
  · intro h i hi
    rw [← b.valid_getElem? hi, h, c.valid_getElem? (hp ▸ hi)]
  · intro h
    apply List.ext_getElem?
    intro i
    rcases Nat.lt_or_ge i b.p.toNat with hi | hi
    · rw [b.valid_getElem? hi, h i hi, c.valid_getElem? (hp ▸ hi)]
    · rw [List.getElem?_eq_none (by simpa using hi), List.getElem?_eq_none (by simpa [← hp] using hi)]

theorem Block.Agree.valid {b c : Block} (h : b.Agree c) : b.valid = c.valid := (Block.valid_eq_iff h.p).mpr h.buf

/-- Agreeing blocks read the same at every register: H is read in DONE only (40_commands.md rule R110). -/
theorem Block.Agree.readReg {b c : Block} (h : b.Agree c) (r : Reg) : b.readReg r = c.readReg r := by
  cases r with
  | status => simp only [Block.readReg, Block.status, h.ovf, h.errcode, h.rej, h.state, h.busy]
  | digest j =>
    simp only [Block.readReg, ← h.state]
    split
    · next hd => rw [h.h (.inr hd)]
    · rfl
  | data => exact h.data
  | errval => exact h.errval
  | lenLo => simp only [Block.readReg, h.l]
  | lenHi => simp only [Block.readReg, h.l]
  | cmd => rfl
  | reserved => rfl

/-! Host accesses. -/

theorem Block.Agree.withData {b c : Block} (h : b.Agree c) (v : Word) :
    ({ b with data := v } : Block).Agree { c with data := v } := { h with data := rfl }

theorem Block.Agree.reject {b c : Block} (h : b.Agree c) : b.reject.Agree c.reject := { h with rej := rfl }

theorem Block.Agree.latch {b c : Block} (h : b.Agree c) (i : Instr) : (b.latch i).Agree (c.latch i) :=
  { h with busy := rfl, pend := by simp [h.data] }

/-- Acceptance looks at BUSY and STATE alone (40_commands.md rule R91). -/
theorem Block.Agree.accept {b c : Block} (h : b.Agree c) (v : Word) : (b.accept v).Agree (c.accept v) := by
  unfold Block.accept
  rw [← h.busy, ← h.state]
  split
  · exact h.reject
  · split
    · exact h.reject
    · split
      · exact h.latch _
      · exact h.reject

theorem Block.Agree.accessed {b c : Block} (h : b.Agree c) (off : BitVec 6) (n : Nat) (k : AccessKind) :
    (b.accessed off n k).Agree (c.accessed off n k) := by
  unfold Block.accessed
  split
  · cases k with
    | read => exact h
    | write v =>
      unfold Block.regWrite
      cases regOf off with
      | cmd => exact h.accept v
      | data => exact h.withData v
      | _ => exact h
  · exact h

theorem Block.Agree.replyTo {b c : Block} (h : b.Agree c) (off : BitVec 6) (n : Nat) (k : AccessKind) (m : Nat) :
    b.replyTo off n k m = c.replyTo off n k m := by
  unfold Block.replyTo Block.regRead
  rw [h.readReg]

theorem State.Agree.access {s t : State} (h : s.Agree t) (off : BitVec 6) (n : Nat) (k : AccessKind) :
    (s.access off n k).Agree (t.access off n k) :=
  { h with
    blk := h.blk.accessed off n k
    replies := by rw [State.access_replies, State.access_replies, h.blk.replyTo, h.replies] }

theorem State.Agree.busAccess {s t : State} (h : s.Agree t) (a : BusAccess) :
    (s.busAccess a).Agree (t.busAccess a) := by
  unfold State.busAccess
  split
  · exact h.access _ _ _
  · exact { h with replies := congrArg (Reply.notDecoded :: ·) h.replies }

theorem State.Agree.withHost {s t : State} (h : s.Agree t) (rest : List HostOp) :
    ({ s with host := rest } : State).Agree { t with host := rest } := { h with host := rfl }

theorem State.Agree.popTurn {s t : State} (h : s.Agree t) : s.popTurn.Agree t.popTurn :=
  { h with sched := congrArg List.tail h.sched }

/-- A host turn: the same access is made on both, and `poll` sees the same BUSY (30_encoding.md rule R78). -/
theorem State.Agree.hostTurn {s t : State} (h : s.Agree t) : s.hostTurn.Agree t.hostTurn := by
  unfold State.hostTurn
  rw [← h.host]
  split
  · exact h
  · exact (h.withHost _).access _ _ _
  · exact (h.withHost _).access _ _ _
  · exact (h.withHost _).busAccess _
  · rw [Block.regRead_offStatus_bit0, Block.regRead_offStatus_bit0, ← h.blk.busy]
    split
    · exact h.access _ _ _
    · exact (h.withHost _).access _ _ _

/-! Completions. -/

theorem Block.Agree.operand {b c : Block} (h : b.Agree c) : b.operand = c.operand := by
  unfold Block.operand
  rw [h.pend, h.data]

theorem Block.Agree.finish {b c : Block} (h : b.Agree c) : b.finish.Agree c.finish :=
  { h with busy := rfl, pend := rfl }

/-- INIT writes H, and leaves no valid byte (40_commands.md rule R101). -/
theorem Block.Agree.initEffect {b c : Block} (h : b.Agree c) : b.initEffect.Agree c.initEffect :=
  { h with
    p := rfl, l := rfl, ovf := rfl, state := rfl, rej := rfl, errcode := rfl, errval := rfl
    buf := by simp
    h := fun _ => rfl }

/-- In ERROR neither H nor a new byte matters (60_exceptions.md rule R203). -/
theorem Block.Agree.raise {b c : Block} (h : b.Agree c) (e : ErrorKind) (v : Word) : (b.raise e v).Agree (c.raise e v) :=
  { h with state := rfl, errcode := rfl, errval := rfl, h := by simp }

/-- The stream a run of `append` works on is the valid bytes and the bytes appended, so that in a state where H matters
the same H and the same valid bytes come out (42_padding_parsing.md rule R141). -/
theorem Block.Agree.appendAll {b c : Block} (h : b.Agree c) (hs : b.state = .absorb) (xs : List Byte) :
    (b.appendAll xs).Agree (c.appendAll xs) := by
  obtain ⟨hbh, hbv, -⟩ := b.appendAll_stream xs
  obtain ⟨hch, hcv, -⟩ := c.appendAll_stream xs
  have hp : (b.appendAll xs).p = (c.appendAll xs).p := by simp [h.p]
  exact {
    p := hp
    l := by simpa using h.l
    ovf := by simpa using h.ovf
    state := by simpa using h.state
    busy := by simpa using h.busy
    pend := by simpa using h.pend
    rej := by simpa using h.rej
    errcode := by simpa using h.errcode
    errval := by simpa using h.errval
    data := by simpa using h.data
    buf := (Block.valid_eq_iff hp).mp (by rw [hbv, hcv, h.valid])
    h := fun _ => by rw [hbh, hch, h.valid, h.h (.inl hs)] }

/-- OVF after absorbing bytes depends on OVF and L before it (10_state.md rule R27). -/
theorem Block.absorbAll_ovf_congr (xs : List Byte) {b c : Block} (hl : b.l = c.l) (ho : b.ovf = c.ovf) :
    (b.absorbAll xs).ovf = (c.absorbAll xs).ovf := by
  induction xs generalizing b c with
  | nil => exact ho
  | cons x xs ih =>
    rw [Block.absorbAll_cons, Block.absorbAll_cons]
    exact ih (by simp [hl]) (by simp [hl, ho])

theorem Block.Agree.absorbAll {b c : Block} (h : b.Agree c) (hs : b.state = .absorb) (xs : List Byte) :
    (b.absorbAll xs).Agree (c.absorbAll xs) := by
  rw [b.absorbAll_eq_appendAll, c.absorbAll_eq_appendAll]
  exact { h.appendAll hs xs with
    l := by simp [Block.absorbAll_l, h.l]
    ovf := Block.absorbAll_ovf_congr xs h.l h.ovf }

/-- The padding depends on P and L (42_padding_parsing.md rule R145). -/
theorem Block.Agree.padding {b c : Block} (h : b.Agree c) : b.padding = c.padding := by
  unfold Block.padding
  rw [h.p, h.l]

/-- A command that completes in a state it is legal in keeps agreement: PUSH_CP and FINAL use H in ABSORB only. -/
theorem Block.Agree.effectOf {b c : Block} (h : b.Agree c) {i : Instr} (x : Word) (hl : legalIn i b.state = true) :
    (effectOf i x b).Agree (effectOf i x c) := by
  cases i with
  | nop => exact h
  | init => exact h.initEffect
  | pushCp =>
    have hs : b.state = .absorb := of_decide_eq_true hl
    show (b.pushEffect x).Agree (c.pushEffect x)
    rcases Nat.lt_or_ge maxCodePoint x.toNat with hx | hx
    · rw [b.pushEffect_of_gt hx, c.pushEffect_of_gt hx]; exact h.raise _ _
    · rw [b.pushEffect_of_le hx, c.pushEffect_of_le hx]; exact h.absorbAll hs _
  | final =>
    have hs : b.state = .absorb := of_decide_eq_true hl
    show b.finalEffect.Agree c.finalEffect
    rcases ho : b.ovf with _ | _
    · rw [Block.finalEffect_of_not_ovf ho, Block.finalEffect_of_not_ovf (h.ovf ▸ ho), ← h.padding]
      have ha := h.appendAll hs b.padding
      exact { ha with state := rfl, h := fun _ => ha.h (.inl (by simpa using hs)) }
    · rw [Block.finalEffect_of_ovf ho, Block.finalEffect_of_ovf (h.ovf ▸ ho)]; exact h.raise _ _

theorem State.Agree.completeWith {s t : State} (h : s.Agree t) {i : Instr} (hl : legalIn i s.blk.state = true) :
    (s.completeWith (effectOf i)).Agree (t.completeWith (effectOf i)) :=
  { h with
    blk := by
      rw [State.completeWith_blk, State.completeWith_blk, ← h.blk.operand]
      exact (h.blk.effectOf _ hl).finish }

/-- Reset gives every specified field the same value on all blocks (10_state.md rule R46). -/
theorem Block.afterReset_agree (b c : Block) : b.afterReset.Agree c.afterReset := by
  constructor <;> intros <;> rfl

theorem State.Agree.turn {s t : State} (h : s.Agree t) : s.turn = t.turn := by
  unfold State.turn
  rw [h.sched, h.blk.busy]

/-- Agreeing machines take the same step and agree again. -/
theorem State.Agree.step {s t s' : State} (h : s.Agree t) (hl : s.blk.PendLegal) (hs : step s = .next s') :
    ∃ t', step t = .next t' ∧ s'.Agree t' := by
  rcases step_cases hs with ⟨ht, rfl⟩ | ⟨ht, rfl⟩ | ⟨ht, hb, rfl⟩ | ⟨i, x, ht, hb, hp, rfl⟩ <;> rw [h.turn] at ht
  · exact ⟨_, step_host ht, h.popTurn.hostTurn⟩
  · exact ⟨_, step_reset ht, { h.popTurn with blk := Block.afterReset_agree _ _ }⟩
  · exact ⟨_, step_idle ht (h.blk.busy ▸ hb), h.popTurn⟩
  · refine ⟨_, ?_, h.popTurn.completeWith (hl _ hp)⟩
    rw [step_engine ht (h.blk.busy ▸ hb) (h.blk.pend ▸ hp), exec_eq]

/-- Settles O37: agreement is kept by every step, and agreeing blocks read the same. -/
theorem unspecifiedFieldsAreNeverObserved : Obligations.UnspecifiedFieldsAreNeverObserved := by
  intro s t s' h hl hs
  obtain ⟨t', ht, ha⟩ := h.step hl hs
  exact ⟨t', ht, ha, ha.blk.readReg⟩

/-! Who writes what (10_state.md rules R24 to R27, R31 to R34, R47). -/

/-- A host turn writes at most DATA, REJ, PEND and BUSY, and never clears REJ (40_commands.md rules R91, R111). -/
theorem State.hostTurn_writes (s : State) :
    ∃ d r q u, s.hostTurn.blk = { s.blk with data := d, rej := r, pend := q, busy := u } ∧
      (s.blk.rej = true → r = true) := by
  rcases s.hostTurn_cases with h | ⟨v, h⟩ | h | ⟨i, -, -, h⟩
  · exact ⟨_, _, _, _, h, id⟩
  · exact ⟨_, _, _, _, h, id⟩
  · exact ⟨_, _, _, _, h, fun _ => rfl⟩
  · exact ⟨_, _, _, _, h, id⟩

/-- A command in flight completes on the engine's turn. -/
theorem completes_of_pend {s : State} {i : Instr} {x : Word} (ht : s.turn = .engine) (hb : s.blk.busy = true)
    (hp : s.blk.pend = some ⟨i, x⟩) : Completes s i := ⟨ht, Block.fetch_command_iff.mpr ⟨hb, x, hp⟩⟩

/-! What PUSH_CP and FINAL leave alone (40_commands.md rules R102, R104). -/

@[simp] theorem Block.pushEffect_rej (x : Word) (b : Block) : (b.pushEffect x).rej = b.rej := by
  unfold Block.pushEffect; split <;> simp
@[simp] theorem Block.finalEffect_rej (b : Block) : b.finalEffect.rej = b.rej := by
  unfold Block.finalEffect; split <;> simp [Block.padAndFinish_eq]
@[simp] theorem Block.finalEffect_ovf (b : Block) : b.finalEffect.ovf = b.ovf := by
  unfold Block.finalEffect; split <;> simp [Block.padAndFinish_eq]
@[simp] theorem Block.finalEffect_l (b : Block) : b.finalEffect.l = b.l := by
  unfold Block.finalEffect; split <;> simp [Block.padAndFinish_eq]

/-- PUSH_CP writes STATE and the error detail only above the limit (60_exceptions.md rule R201). -/
theorem Block.pushEffect_detail_of_ne (x : Word) (b : Block)
    (h : (b.pushEffect x).state ≠ b.state ∨ (b.pushEffect x).errcode ≠ b.errcode ∨
      (b.pushEffect x).errval ≠ b.errval) : maxCodePoint < x.toNat := by
  by_contra hx
  rw [b.pushEffect_of_le (Nat.le_of_not_lt hx)] at h
  simp at h

/-- PUSH_CP never clears OVF (10_state.md rule R27). -/
theorem Block.pushEffect_ovf_of_ovf (x : Word) {b : Block} (h : b.ovf = true) : (b.pushEffect x).ovf = true := by
  unfold Block.pushEffect
  split
  · exact h
  · exact Block.absorbAll_ovf_of_ovf _ h

/-- PUSH_CP writes H only by compressing a block (10_state.md rule R24). -/
theorem Block.pushEffect_compresses_of_h_ne (x : Word) (b : Block) (h : (b.pushEffect x).h ≠ b.h) :
    b.compressions < (b.pushEffect x).compressions := by
  unfold Block.pushEffect at h ⊢
  split at h
  · exact absurd rfl h
  · rw [Block.absorbAll_h] at h
    rw [Block.absorbAll_compressions]
    exact (b.appendAll_compressions_le _).2 h

/-- FINAL writes H only by compressing a block (10_state.md rule R24). -/
theorem Block.finalEffect_compresses_of_h_ne (b : Block) (h : b.finalEffect.h ≠ b.h) :
    b.compressions < b.finalEffect.compressions := by
  rcases ho : b.ovf with _ | _
  · rw [Block.finalEffect_of_not_ovf ho] at h ⊢
    exact (b.appendAll_compressions_le _).2 h
  · rw [Block.finalEffect_of_ovf ho] at h
    exact absurd rfl h

/-- Settles O35, agent by agent: of the flags a host turn writes REJ alone, and each command only its own. -/
theorem writersOfTheFlags : Obligations.WritersOfTheFlags := by
  intro s t h hreset hinit
  rcases step_cases h with ⟨ht, rfl⟩ | ⟨ht, -⟩ | ⟨-, -, rfl⟩ | ⟨i, x, ht, hb, hp, rfl⟩
  · obtain ⟨d, r, q, u, hw, hr⟩ := s.popTurn.hostTurn_writes
    rw [hw]
    exact ⟨by simp, hr, fun _ => ht, id, by simp⟩
  · exact absurd ht hreset
  · simp
  · have hc := completes_of_pend ht hb hp
    rw [State.completeWith_blk, State.popTurn_blk]
    cases i with
    | nop => simp [effectOf]
    | init => exact absurd hc hinit
    | pushCp =>
      exact ⟨fun hd => .inr ⟨hc, Block.pushEffect_detail_of_ne _ _ hd⟩, by simp [effectOf], by simp [effectOf],
        Block.pushEffect_ovf_of_ovf _, fun _ => hc⟩
    | final => simp [effectOf, hc]

/-- Settles O36, agent by agent: a host turn writes DATA alone of these, and each command only its own. -/
theorem writersOfTheDataRegisters : Obligations.WritersOfTheDataRegisters := by
  intro s t h hreset
  rcases step_cases h with ⟨ht, rfl⟩ | ⟨ht, -⟩ | ⟨-, -, rfl⟩ | ⟨i, x, ht, hb, hp, rfl⟩
  · obtain ⟨d, r, q, u, hw, -⟩ := s.popTurn.hostTurn_writes
    rw [hw]
    exact ⟨fun _ => ht, by simp, by simp, by simp, by simp⟩
  · exact absurd ht hreset
  · simp
  · have hc := completes_of_pend ht hb hp
    rw [State.completeWith_blk, State.popTurn_blk]
    cases i with
    | nop => simp [effectOf]
    | init => simp [effectOf, hc]
    | pushCp =>
      exact ⟨by simp, fun hh => .inr (Block.pushEffect_compresses_of_h_ne _ _ hh), fun _ => .inr hc, fun _ => .inl hc,
        fun _ => .inl hc⟩
    | final =>
      exact ⟨by simp, fun hh => .inr (Block.finalEffect_compresses_of_h_ne _ hh), by simp [effectOf], fun _ => .inr hc,
        fun _ => .inr hc⟩

/-! The registers of the window (10_state.md rules R38, R41, R44, R46). -/

/-- STATUS bit by bit: in the concatenation of rule R41 each field stands above the widths of those to its right
(10_state.md rule R41). -/
theorem Block.status_getLsbD (b : Block) (n : Nat) :
    b.status.getLsbD n =
      if n = 0 then b.busy
      else if n < 3 then b.state.code.getLsbD (n - 1)
      else if n = 3 then b.rej
      else if n < 8 then b.errcode.getLsbD (n - 4)
      else if n = 8 then b.ovf
      else false := by
  simp only [Block.status, BitVec.getLsbD_setWidth, BitVec.getLsbD_append, BitVec.getLsbD_ofBool]
  grind

/-- Bits 2:1 of STATUS are the encoding of STATE. -/
theorem Block.status_state (b : Block) : b.status.extractLsb 2 1 = b.state.code := by
  apply BitVec.eq_of_getLsbD_eq
  intro i hi
  rw [BitVec.getLsbD_extractLsb, b.status_getLsbD, if_neg (by omega), if_pos (by omega), Nat.add_sub_cancel_left,
    decide_eq_true (by omega), Bool.true_and]

/-- Bits 7:4 of STATUS are ERRCODE. -/
theorem Block.status_errcode (b : Block) : b.status.extractLsb 7 4 = b.errcode := by
  apply BitVec.eq_of_getLsbD_eq
  intro i hi
  rw [BitVec.getLsbD_extractLsb, b.status_getLsbD, if_neg (by omega), if_neg (by omega), if_neg (by omega),
    if_pos (by omega), Nat.add_sub_cancel_left, decide_eq_true (by omega), Bool.true_and]

/-- Bits 31:9 of STATUS are 0. -/
theorem Block.status_high (b : Block) : b.status.extractLsb 31 9 = 0#23 := by
  apply BitVec.eq_of_getLsbD_eq
  intro i hi
  rw [BitVec.getLsbD_extractLsb, b.status_getLsbD, if_neg (by omega), if_neg (by omega), if_neg (by omega),
    if_neg (by omega), if_neg (by omega), Bool.and_false, BitVec.getLsbD_zero]

/-- Settles O20, field by field from `Block.status_getLsbD`. -/
theorem statusFields : Obligations.StatusFields := by
  refine ⟨fun b => ⟨b.status_getLsbD 0, ?_, b.status_getLsbD 3, b.status_errcode, b.status_getLsbD 8, b.status_high,
    fun _ => rfl⟩, by decide⟩
  refine b.status_state.trans ?_
  cases b.state <;> rfl

/-- Settles O22: the offset selects DIGESTj, which no write changes. -/
theorem digestOnlyWhenDone : Obligations.DigestOnlyWhenDone := by
  intro b j
  have hr : regOf (BitVec.ofNat 6 (0x20 + 4 * j.val)) = .digest j := regOf_offDigest j
  simp only [Block.regRead, Block.regWrite, hr]
  exact ⟨fun hd => if_pos hd, fun hd => if_neg hd, fun _ => rfl⟩

/-- Every register reads 0 right after reset (10_state.md rule R46). -/
theorem Block.reset_readReg (r : Reg) : Block.reset.readReg r = 0#32 := by
  cases r with
  | status => decide
  | lenHi => decide
  | _ => rfl

/-- Settles O27: the named fields by definition, the window by `Block.reset_readReg`. -/
theorem resetState : Obligations.ResetState :=
  ⟨rfl, rfl, rfl, rfl, rfl, rfl, rfl, rfl, rfl, rfl, Block.reset_readReg⟩

end Sys2Proof.Machine

namespace Sys2Proof.Machine

/-! An access on the bus: which ones the window admits, and what each kind does and is answered
(20_memory.md rules R51, R57, R59; 40_commands.md rules R110, R111). -/

/-- The window admits 4 bytes at an aligned offset and nothing else (20_memory.md rule R57). -/
theorem accessAdmitted_iff {n : Nat} {off : BitVec 6} :
    accessAdmitted n off = true ↔ n = 4 ∧ off.extractLsb 1 0 = 0#2 := by
  simp [accessAdmitted]

theorem accessAdmitted_eq_false_iff {n : Nat} {off : BitVec 6} :
    accessAdmitted n off = false ↔ n ≠ 4 ∨ off.extractLsb 1 0 ≠ 0#2 := by
  rw [← Bool.not_eq_true, accessAdmitted_iff, not_and_or]

/-- An access that is not admitted is answered by the platform alone (20_memory.md rule R57). -/
theorem State.access_of_not_admitted (s : State) {off : BitVec 6} {n : Nat} (k : AccessKind)
    (h : accessAdmitted n off = false) :
    s.access off n k = s.answer (.busError (Config.busErrorResponse s.replies.length)) := by
  simp [State.access, Block.accessed_of_not_admitted, Block.replyTo, h]

/-- An admitted read is answered with RegRead and changes nothing (40_commands.md rule R110). -/
theorem State.access_read_of_admitted (s : State) {off : BitVec 6} {n : Nat} (h : accessAdmitted n off = true) :
    s.access off n .read = s.answer (.value (s.blk.regRead off)) := by
  simp [State.access, Block.replyTo, h]

/-- An admitted write is RegWrite (40_commands.md rule R111). -/
theorem State.access_write_of_admitted (s : State) {off : BitVec 6} {n : Nat} (v : Word)
    (h : accessAdmitted n off = true) :
    s.access off n (.write v) = { s with blk := s.blk.regWrite off v }.answer .written := by
  simp [State.access, Block.accessed, Block.replyTo, h]

/-- A bus access inside the window is the access at its offset (20_memory.md rule R51). -/
theorem State.busAccess_inside (s : State) {a : BusAccess} {off : BitVec 6} (h : a.addr = Config.base + off.toNat) :
    s.busAccess a = s.access off a.bytes a.kind := by
  simp [State.busAccess, h, windowOffset_add]

/-- A bus access outside the window is not decoded (20_memory.md rule R51; log entry 15). -/
theorem State.busAccess_outside (s : State) {a : BusAccess}
    (h : a.addr < Config.base ∨ Config.base + 0x3F < a.addr) : s.busAccess a = s.answer .notDecoded := by
  simp [State.busAccess, windowOffset_outside h]

/-! The host's turn, by the line of its program (30_encoding.md rule R78): the line and the turn are taken, then
the access is made. -/

theorem step_bus {s : State} {a : BusAccess} {rest : List HostOp} (ht : s.turn = .host) (hh : s.host = .bus a :: rest) :
    step s = .next ({ s with host := rest, sched := s.sched.tail }.busAccess a) := by
  simp [step_host ht, State.hostTurn, State.popTurn, hh]

theorem step_rd {s : State} {off : BitVec 6} {rest : List HostOp} (ht : s.turn = .host)
    (hh : s.host = .rd off :: rest) :
    step s = .next ({ s with host := rest, sched := s.sched.tail }.access off 4 .read) := by
  simp [step_host ht, State.hostTurn, State.popTurn, hh]

theorem step_wr {s : State} {off : BitVec 6} {v : Word} {rest : List HostOp} (ht : s.turn = .host)
    (hh : s.host = .wr off v :: rest) :
    step s = .next ({ s with host := rest, sched := s.sched.tail }.access off 4 (.write v)) := by
  simp [step_host ht, State.hostTurn, State.popTurn, hh]

/-- A bus line inside the window is one access at its offset (20_memory.md rules R51, R58). -/
theorem step_bus_inside {s : State} {a : BusAccess} {off : BitVec 6} {rest : List HostOp} (ht : s.turn = .host)
    (hh : s.host = .bus a :: rest) (ha : a.addr = Config.base + off.toNat) :
    step s = .next ({ s with host := rest, sched := s.sched.tail }.access off a.bytes a.kind) := by
  rw [step_bus ht hh, State.busAccess_inside _ ha]

/-- Settles O23: the addresses by `windowOffset_add` and `windowOffset_outside`, the step by
`State.busAccess_outside`. -/
theorem windowDecoding : Obligations.WindowDecoding := by
  refine ⟨Nat.mul_mod_right 64 Config.slot, windowOffset_add _, fun _ h => windowOffset_outside h, ?_⟩
  intro s a rest ht hh ha
  rw [step_bus ht hh, State.busAccess_outside _ ha]
  rfl

/-- Settles O24: the access is at an offset of the window, where it is not admitted. -/
theorem unadmittedAccessChangesNothing : Obligations.UnadmittedAccessChangesNothing := by
  intro s a off rest ht hh ha hbad
  rw [step_bus_inside ht hh ha, State.access_of_not_admitted _ _ (accessAdmitted_eq_false_iff.mpr hbad)]
  rfl

/-- Settles O25: the bus form and the offset form of a line make the same admitted access. -/
theorem admittedBusAccess : Obligations.AdmittedBusAccess := by
  intro s off rest ht haligned
  have hadm : accessAdmitted 4 off = true := accessAdmitted_iff.mpr ⟨rfl, haligned⟩
  constructor
  · intro hline
    have hstep : step s = .next ({ s with host := rest, sched := s.sched.tail }.access off 4 .read) :=
      hline.elim (fun hh => step_bus_inside ht hh rfl) (fun hh => step_rd ht hh)
    rw [hstep, State.access_read_of_admitted _ hadm]
    rfl
  · intro v hline
    have hstep : step s = .next ({ s with host := rest, sched := s.sched.tail }.access off 4 (.write v)) :=
      hline.elim (fun hh => step_bus_inside ht hh rfl) (fun hh => step_wr ht hh)
    rw [hstep, State.access_write_of_admitted _ v hadm]
    rfl

end Sys2Proof.Machine

namespace Sys2Proof

/-! The decoder through the two fields of a word, reserved bits and opcode (30_encoding.md rules R70, R72, R73). -/

/-- A word is a command's word exactly when its reserved field is zero and its opcode is the command's. -/
theorem eq_encode_iff {v : Word} {i : Instr} :
    v = encode i ↔ v.extractLsb 31 4 = 0#28 ∧ v.extractLsb 3 0 = i.opcode := by
  constructor
  · rintro rfl
    cases i <;> decide
  · rintro ⟨hrsv, hop⟩
    rw [encode, ← hrsv, ← hop]
    exact (BitVec.extractLsb'_append_extractLsb' (w := 28) (len := 4)).symm

/-- A nonzero reserved field is illegal whatever the opcode (30_encoding.md rule R75). -/
theorem decode_of_reserved_ne {v : Word} (h : v.extractLsb 31 4 ≠ 0#28) : decode v = .illegal .reservedBits :=
  if_pos h

theorem decode_of_opcode {v : Word} {i : Instr} (hrsv : v.extractLsb 31 4 = 0#28)
    (hop : v.extractLsb 3 0 = i.opcode) : decode v = .command i := by
  rw [eq_encode_iff.mpr ⟨hrsv, hop⟩, decode_encode]

/-- The opcodes 0x4 to 0xF are reserved (30_encoding.md rule R74). -/
theorem decode_of_reserved_opcode {v : Word} (hrsv : v.extractLsb 31 4 = 0#28)
    (hop : 4 ≤ (v.extractLsb 3 0).toNat) : decode v = .illegal .reservedOpcode := by
  unfold decode
  rw [if_neg (not_not.mpr hrsv)]
  split
  case h_5 => rfl
  all_goals omega

/-- Every opcode is a command's or reserved (30_encoding.md rule R72). -/
theorem opcode_defined_or_reserved (x : BitVec 4) : (∃ i : Instr, x = i.opcode) ∨ 4 ≤ x.toNat := by
  have hdefined : x = 0#4 ∨ x = 1#4 ∨ x = 2#4 ∨ x = 3#4 ∨ 4 ≤ x.toNat := by revert x; decide
  obtain h | h | h | h | h := hdefined
  · exact .inl ⟨.nop, h⟩
  · exact .inl ⟨.init, h⟩
  · exact .inl ⟨.pushCp, h⟩
  · exact .inl ⟨.final, h⟩
  · exact .inr h

/-- A word that decodes as a command is that command's own word. -/
theorem eq_encode_of_decode {v : Word} {i : Instr} (h : decode v = .command i) : v = encode i := by
  by_cases hrsv : v.extractLsb 31 4 = 0#28
  · obtain ⟨j, hop⟩ | hop := opcode_defined_or_reserved (v.extractLsb 3 0)
    · obtain rfl : j = i := by simpa [decode_of_opcode hrsv hop] using h
      exact eq_encode_iff.mpr ⟨hrsv, hop⟩
    · simp [decode_of_reserved_opcode hrsv hop] at h
  · simp [decode_of_reserved_ne hrsv] at h

/-- Settles O1: one direction is `decode_encode`, the other `eq_encode_of_decode`. -/
theorem oneWordPerCommand : Obligations.OneWordPerCommand :=
  ⟨fun _ _ => ⟨eq_encode_of_decode, fun h => h ▸ decode_encode _⟩, by decide⟩

/-- Settles O3: the four legal words by the laws of the decoder, the two illegal ones by evaluation. -/
theorem writtenOutWords : Obligations.WrittenOutWords :=
  ⟨decode_nop, decode_init, decode_pushCp, decode_final, by decide, by decide⟩

end Sys2Proof

namespace Sys2Proof.Machine

/-- An illegal word is rejected at acceptance (30_encoding.md rule R73, 40_commands.md rule R91). -/
theorem Block.accept_of_illegal (b : Block) {v : Word} {why : IllegalWord} (h : decode v = .illegal why) :
    b.accept v = b.reject := by
  obtain hrej | ⟨i, -, hcmd, -⟩ := b.accept_cases v
  · exact hrej
  · simp [h] at hcmd

/-- Settles O2: the decoder by the fields of the word, and `Block.accept_of_illegal`. -/
theorem decodeByFields : Obligations.DecodeByFields := fun _ =>
  ⟨decode_of_reserved_ne, decode_of_opcode (i := .nop), decode_of_opcode (i := .init),
    decode_of_opcode (i := .pushCp), decode_of_opcode (i := .final), decode_of_reserved_opcode,
    fun b _ h => b.accept_of_illegal h⟩

/-- A poll is an aligned read of STATUS, and it stays the host's next line while BUSY = 1 (30_encoding.md rule R78). -/
theorem step_poll {s : State} {rest : List HostOp} (ht : s.turn = .host) (hh : s.host = .poll :: rest) :
    step s = .next ({ s with
      host := if s.blk.busy then .poll :: rest else rest
      sched := s.sched.tail }.access offStatus 4 .read) := by
  simp only [step_host ht, State.hostTurn, State.popTurn, hh, Block.regRead_offStatus_bit0]
  cases s.blk.busy <;> rfl

/-- Settles O26: `step_poll`, whose read the window admits. -/
theorem pollWaitsForBusy : Obligations.PollWaitsForBusy := by
  intro s rest ht hh
  have hadm : accessAdmitted 4 offStatus = true := by decide
  rw [step_poll ht hh, State.access_read_of_admitted _ hadm]
  rfl

end Sys2Proof.Machine

namespace Sys2Proof.Machine

/-! Every accepted command completes (40_commands.md rule R94). -/

/-- Where the schedule says nothing, the engine moves while BUSY = 1 (log entry 6). -/
theorem State.turn_of_busy {s : State} (hsched : s.sched = []) (hb : s.blk.busy = true) : s.turn = .engine := by
  simp [State.turn, hsched, hb]

/-- Where the schedule says nothing, the host moves while BUSY = 0 (log entry 6). -/
theorem State.turn_of_not_busy {s : State} (hsched : s.sched = []) (hb : s.blk.busy = false) : s.turn = .host := by
  simp [State.turn, hsched, hb]

/-- While BUSY = 1 a host turn leaves BUSY and what is latched alone (40_commands.md rule R91). -/
theorem State.hostTurn_keeps_pend {s : State} (hb : s.blk.busy = true) :
    s.hostTurn.blk.busy = true ∧ s.hostTurn.blk.pend = s.blk.pend := by
  rcases s.hostTurn_cases with h | ⟨v, h⟩ | h | ⟨i, hidle, -, -⟩
  · rw [h]; exact ⟨hb, rfl⟩
  · rw [h]; exact ⟨hb, rfl⟩
  · rw [h]; exact ⟨hb, rfl⟩
  · rw [hb] at hidle; cases hidle

/-- On the engine's turn the command in flight completes in this step, and BUSY and PEND are cleared (40_commands.md
rule R93). -/
theorem step_completes {s : State} {i : Instr} {x : Word} (ht : s.turn = .engine) (hb : s.blk.busy = true)
    (hp : s.blk.pend = some ⟨i, x⟩) :
    ∃ t, Completes s i ∧ step s = .next t ∧ t.blk.busy = false ∧ t.blk.pend = none :=
  ⟨_, completes_of_pend ht hb hp, by rw [step_engine ht hb hp, exec_eq], rfl, rfl⟩

/-- Settles O18, by induction over the schedule: the host's turns leave the command in flight alone, and the engine
moves at its first turn or, at the latest, where the schedule is used up. -/
theorem everyAcceptedCommandCompletes : Obligations.EveryAcceptedCommandCompletes := by
  intro s i x hb hp hreset
  induction hsched : s.sched generalizing s with
  | nil =>
    obtain ⟨t, hdone⟩ := step_completes (State.turn_of_busy hsched hb) hb hp
    exact ⟨0, s, t, Nat.le_refl 0, run_zero s, hp, hdone⟩
  | cons first rest ih =>
    have ht : s.turn = first := by simp [State.turn, hsched]
    cases first with
    | engine =>
      obtain ⟨t, hdone⟩ := step_completes ht hb hp
      exact ⟨0, s, t, Nat.zero_le _, run_zero s, hp, hdone⟩
    | reset => simp [hsched] at hreset
    | host =>
      have hrest : s.popTurn.hostTurn.sched = rest := by simp [hsched]
      obtain ⟨hb', hp'⟩ := State.hostTurn_keeps_pend (s := s.popTurn) hb
      have hreset' : Turn.reset ∉ s.popTurn.hostTurn.sched := by
        rw [hsched] at hreset
        rw [hrest]
        exact fun hmem => hreset (List.mem_cons_of_mem _ hmem)
      obtain ⟨n, u, t, hn, hrun, hdone⟩ := ih s.popTurn.hostTurn hb' (hp'.trans hp) hreset' hrest
      exact ⟨n + 1, u, t, Nat.succ_le_succ hn, (run_succ (step_host ht)).trans hrun, hdone⟩

/-! Acceptance: its conditions and what it changes (40_commands.md rules R90, R91, R92). -/

/-- NOP and INIT are legal in every STATE, PUSH_CP and FINAL in ABSORB (10_state.md rule R28). -/
theorem legalIn_iff {i : Instr} {st : EngineState} : legalIn i st = true ↔ i = .nop ∨ i = .init ∨ st = .absorb := by
  cases i <;> simp [legalIn]

/-- A legal command is latched while BUSY = 0. -/
theorem Block.accept_of_legal {b : Block} {v : Word} {i : Instr} (hb : b.busy = false) (hd : decode v = .command i)
    (hl : legalIn i b.state = true) : b.accept v = b.latch i := by
  simp [Block.accept, hb, hd, hl]

/-- Whether a command's own word is accepted. -/
theorem Block.accept_encode (b : Block) (i : Instr) :
    b.accept (encode i) = if b.busy = false ∧ legalIn i b.state = true then b.latch i else b.reject := by
  split
  · next h => exact Block.accept_of_legal h.1 (decode_encode i) h.2
  · next h =>
    obtain hrej | ⟨j, hb, hd, hl, -⟩ := b.accept_cases (encode i)
    · exact hrej
    · obtain rfl : i = j := by simpa using hd
      exact absurd ⟨hb, hl⟩ h

/-- A command that every STATE allows is accepted exactly when BUSY = 0. -/
theorem Block.accept_encode_of_always_legal (b : Block) {i : Instr} (hl : ∀ st, legalIn i st = true) :
    b.accept (encode i) = if b.busy then b.reject else b.latch i := by
  rw [b.accept_encode]
  cases b.busy <;> simp [hl]

/-- The command words are 0 to 3 (30_encoding.md rule R72). -/
theorem encode_toNat_le (i : Instr) : (encode i).toNat ≤ 3 := by cases i <;> decide

/-- Settles O4: the words of the commands by `Block.accept_encode`, and no word above 3 is one of them. -/
theorem acceptanceTable : Obligations.AcceptanceTable := by
  refine ⟨fun b i => ?_, fun b v hv => ?_⟩
  · simp only [b.accept_encode, legalIn_iff]
    rfl
  · obtain hrej | ⟨i, -, hd, -, -⟩ := b.accept_cases v
    · exact hrej
    · have := encode_toNat_le i
      rw [eq_encode_of_decode hd] at hv
      omega

/-- Latching a command shows in no register but STATUS (40_commands.md rule R90). -/
theorem Block.latch_readReg (b : Block) (i : Instr) {r : Reg} (h : r ≠ .status) :
    (b.latch i).readReg r = b.readReg r := by
  cases r with
  | status => exact absurd rfl h
  | _ => rfl

/-- In STATUS latching a command sets bit 0 and no other (10_state.md rule R41). -/
theorem Block.latch_status (b : Block) (i : Instr) : (b.latch i).status = b.status ||| 1#32 := by
  apply BitVec.eq_of_getLsbD_eq
  intro n hn
  rw [BitVec.getLsbD_or, (b.latch i).status_getLsbD, b.status_getLsbD, BitVec.getLsbD_one]
  by_cases h : n = 0
  · simp [h]
  · simp [h]

/-- Settles O5: the accepted command is latched, which only bit 0 of STATUS shows. -/
theorem inFlightViewIsTheOldOne : Obligations.InFlightViewIsTheOldOne := by
  intro b i hb hlegal
  rw [Block.accept_of_legal hb (decode_encode i) (legalIn_iff.mpr hlegal)]
  exact ⟨fun _ hr => b.latch_readReg i hr, b.latch_status i, (b.status_getLsbD 0).trans hb⟩

/-! NOP and INIT (40_commands.md rules R100, R101, R115). -/

/-- Settles O7: the completion by definition, the acceptance because every STATE allows NOP. -/
theorem nopHasNoEffect : Obligations.NopHasNoEffect :=
  ⟨fun _ => rfl, fun b => b.accept_encode_of_always_legal (i := .nop) fun _ => rfl⟩

/-- After INIT STATUS shows ABSORB and nothing else (10_state.md rule R41). -/
theorem Block.initEffect_finish_status (b : Block) : b.initEffect.finish.status = 0x00000002#32 := by
  simp [Block.status, EngineState.code]

/-- Settles O8: the completion by definition, the acceptance because every STATE allows INIT; what INIT writes does not
depend on the state, so a second one changes nothing, and in ABSORB the digest registers read 0. -/
theorem initStartsAHash : Obligations.InitStartsAHash := by
  refine ⟨fun _ => rfl, fun b => b.accept_encode_of_always_legal (i := .init) fun _ => rfl, ?_⟩
  intro s t h
  obtain rfl := exec_next h
  have hhigh : (0#64).extractLsb 63 32 = 0#32 := by decide
  refine ⟨rfl, s.blk.initEffect_finish_status, rfl, hhigh, fun j => ?_⟩
  rw [Block.regRead, regOf_offDigest]
  rfl

/-- After INIT a block differs from another with the same DATA in the unspecified fields alone (40_commands.md rule
R115). -/
theorem Block.initEffect_finish_eq {b c : Block} (hd : b.data = c.data) :
    b.initEffect.finish =
      { c.initEffect.finish with buf := b.buf, working := b.working, compressions := b.compressions } := by
  simp only [Block.initEffect, Block.clearForHash, Block.finish, hd]

/-- INIT makes blocks with the same DATA agree: H is written, and P = 0 leaves no valid byte (40_commands.md rule
R115). -/
theorem Block.initEffect_finish_agree {b c : Block} (hd : b.data = c.data) :
    b.initEffect.finish.Agree c.initEffect.finish := by
  constructor
  case data => exact hd
  case buf => simp
  all_goals intros; rfl

/-- Settles O9: both machines complete INIT, and their blocks are compared by `Block.initEffect_finish_agree` and
`Block.initEffect_finish_eq`. -/
theorem initForgetsTheState : Obligations.InitForgetsTheState := fun _ _ hd hhost hsched hreplies =>
  ⟨_, _, rfl, rfl, ⟨Block.initEffect_finish_agree hd, hhost, hsched, hreplies⟩, Block.initEffect_finish_eq hd⟩

/-! PUSH_CP of an encodable code point (40_commands.md rules R102, R103). -/

/-- The completion of PUSH_CP with a code point within the limit latched absorbs its unit. -/
theorem exec_pushCp_of_le {s : State} {x : Word} (hp : s.blk.pend = some ⟨.pushCp, x⟩)
    (hx : x.toNat ≤ maxCodePoint) :
    exec .pushCp s = .next { s with blk := (s.blk.absorbAll (utf8Bytes x)).finish } := by
  rw [exec_pushCp, State.completeWith, Block.operand_of_pend hp, Block.pushEffect_of_le _ hx]

/-- A stream of one block and an unfinished second has one block, its first 64 bytes (42_padding_parsing.md rule
R142). -/
theorem parseBlocks_of_one {xs : List Byte} (h : xs.length / 64 = 1) :
    parseBlocks xs = [blockWords fun i => xs.getD i 0#8] := by
  simp [parseBlocks, h, blockOf]

/-- A run of `append` that fills at most one block compresses exactly that one (42_padding_parsing.md rule R141). -/
theorem Block.appendAll_compresses_at_most_once (b : Block) {xs : List Byte} (hx : xs.length ≤ 64) :
    (b.appendAll xs).h =
        (if b.p.toNat + xs.length < 64 then b.h
          else compress b.h (blockWords fun i => (b.valid ++ xs).getD i 0#8)) ∧
      (b.appendAll xs).compressions = b.compressions + (if b.p.toNat + xs.length < 64 then 0 else 1) := by
  have hp := b.p.isLt
  have hl : (b.valid ++ xs).length = b.p.toNat + xs.length := by simp
  obtain ⟨hh, -, hc⟩ := b.appendAll_stream xs
  rw [hh, hc]
  split
  · next hshort =>
    rw [parseBlocks_short (by omega), Nat.div_eq_of_lt (by omega)]
    exact ⟨rfl, rfl⟩
  · next hfull =>
    have hone : (b.valid ++ xs).length / 64 = 1 := by omega
    rw [parseBlocks_of_one hone, hone]
    exact ⟨rfl, rfl⟩

/-- Settles O11: a unit of at most four bytes is absorbed, which is a run of `append` that fills at most one block. -/
theorem pushCpAbsorbsTheUnit : Obligations.PushCpAbsorbsTheUnit := by
  intro s x hp hx
  have hlen := utf8Bytes_length_le x
  obtain ⟨hwritten, hkept⟩ := s.blk.appendAll_buf (utf8Bytes x) (by omega)
  obtain ⟨hh, hc⟩ := s.blk.appendAll_compresses_at_most_once (xs := utf8Bytes x) (by omega)
  refine ⟨_, exec_pushCp_of_le hp hx, ?_⟩
  simp only [Block.finish_l, Block.finish_ovf, Block.finish_p, Block.finish_buf, Block.finish_h,
    Block.finish_compressions, Block.absorbAll_p, Block.absorbAll_buf, Block.absorbAll_h,
    Block.absorbAll_compressions]
  exact ⟨Block.absorbAll_l .., Block.absorbAll_ovf _ _ (by omega), Block.appendAll_p_toNat .., hwritten, hkept, hh, hc⟩

/-- Settles O12: what absorbing the unit leaves alone; with no block filled the working registers too. -/
theorem pushCpFrame : Obligations.PushCpFrame := by
  intro s t x hp hx h
  rw [exec_pushCp_of_le hp hx] at h
  obtain rfl := Host.Outcome.next.inj h
  have hw := s.blk.appendAll_working (utf8Bytes x)
  simpa [Block.absorbAll_working] using hw

/-! FINAL below the limit (40_commands.md rule R104). -/

/-- The completion of FINAL with OVF = 0 appends the padding and is done. -/
theorem exec_final_of_not_ovf {s : State} (h : s.blk.ovf = false) :
    exec .final s = .next { s with blk := ({ s.blk.appendAll s.blk.padding with state := .done } : Block).finish } := by
  rw [exec_final, State.completeWith, Block.finalEffect_of_not_ovf h]

/-- The buffer after a run of `append` that ends with a full block is that block (10_state.md rule R25). -/
theorem Block.appendAll_buf_of_full (b : Block) (xs : List Byte) (h0 : (b.valid ++ xs).length ≠ 0)
    (h64 : (b.valid ++ xs).length % 64 = 0) {a : Nat} (ha : a < 64) :
    (b.appendAll xs).buf[a]? = (b.valid ++ xs)[(b.valid ++ xs).length - 64 + a]? := by
  rw [b.appendAll_buf_stream xs a ha, if_neg (by omega), if_pos (by omega), Nat.mul_div_cancel' (by omega)]

/-- Settles O13: the padding completes the valid bytes to `finalTail`, which is one full block or two. -/
theorem finalPadsAndFinishes : Obligations.FinalPadsAndFinishes := by
  intro s ho
  have hlen := s.blk.finalTail_length
  have htail := s.blk.valid_append_padding
  obtain ⟨hh, -, hc⟩ := s.blk.appendAll_stream s.blk.padding
  rw [htail] at hh hc
  refine ⟨_, exec_final_of_not_ovf ho, rfl, s.blk.appendAll_padding_p, hlen, hh, fun a ha => ?_, ?_, ?_⟩
  · rw [← htail]
    refine s.blk.appendAll_buf_of_full _ ?_ ?_ ha <;> rw [htail, hlen] <;> split <;> decide
  · rw [Block.finish_compressions, hc, hlen]
    split <;> rfl
  · simpa using ho

/-! The engine's step (40_commands.md rules R93, R94). -/

/-- No command but INIT writes REJ (10_state.md rule R31). -/
theorem effectOf_rej {i : Instr} (hi : i ≠ .init) (x : Word) (b : Block) : (effectOf i x b).rej = b.rej := by
  cases i with
  | nop => rfl
  | init => exact absurd rfl hi
  | pushCp => exact b.pushEffect_rej x
  | final => exact b.finalEffect_rej

/-- No command but INIT clears OVF (10_state.md rule R27). -/
theorem effectOf_ovf_of_ovf {i : Instr} (hi : i ≠ .init) (x : Word) {b : Block} (h : b.ovf = true) :
    (effectOf i x b).ovf = true := by
  cases i with
  | nop => exact h
  | init => exact absurd rfl hi
  | pushCp => exact Block.pushEffect_ovf_of_ovf x h
  | final => exact b.finalEffect_ovf.trans h

/-- Settles O14: every command is one completion, whose effect keeps DATA, and but for INIT also REJ and a set OVF. -/
theorem everyCommandFrame : Obligations.EveryCommandFrame := fun i s =>
  ⟨_, exec_eq i s, effectOf_data i _ _, rfl, rfl, rfl, rfl, rfl, fun hi =>
    ⟨effectOf_rej hi _ _, effectOf_ovf_of_ovf hi _⟩⟩

/-- Settles O15: the engine's step by `step_engine`, and each command's effect at the latched operand. -/
theorem completionRunsTheLatchedCommand : Obligations.CompletionRunsTheLatchedCommand := by
  refine ⟨fun s i x ht hb hp => ⟨step_engine ht hb hp, ?_⟩, fun s => step_idle⟩
  rw [exec_eq, State.completeWith, Block.operand_of_pend hp]
  cases i <;> rfl

/-- A word the table reads as a command decodes as it (30_encoding.md rule R73). -/
theorem decode_tableWord {w : Nat} {i : Instr} (h : decodeTableWord 32 w = some i) :
    decode (tableWord 32 w) = .command i := by
  rcases hd : decode (tableWord 32 w) with j | why
  · simpa [decodeTableWord, hd] using h
  · simp [decodeTableWord, hd] at h

/-- A legal word is placed as an acceptance latches it, with the engine to move (log entry 8). -/
theorem State.placeCommand_of_decode (s : State) {v : Word} {i : Instr} (h : decode v = .command i) :
    s.placeCommand v = { s with blk := s.blk.latch i, sched := .engine :: s.sched } := by
  simp [State.placeCommand, h]

/-- Settles O16: the placed command is in flight and it is the engine's turn. -/
theorem stepRunsTheDecodedCommand : Obligations.StepRunsTheDecodedCommand := by
  intro s w i h
  rw [State.withFetchWord, s.placeCommand_of_decode (decode_tableWord h)]
  exact step_engine rfl rfl rfl

/-- The host's write of a legal word to CMD while BUSY = 0 latches the command (40_commands.md rules R91, R111). -/
theorem step_wr_cmd_of_legal {s : State} {v : Word} {i : Instr} {rest : List HostOp} (ht : s.turn = .host)
    (hh : s.host = .wr offCmd v :: rest) (hb : s.blk.busy = false) (hd : decode v = .command i)
    (hl : legalIn i s.blk.state = true) :
    step s = .next ({ s with blk := s.blk.latch i, host := rest, sched := s.sched.tail }.answer .written) := by
  rw [step_wr ht hh, State.access_write_of_admitted _ v (by decide), ← Block.accept_of_legal hb hd hl]
  rfl

/-- Settles O17: the first step is the host's write, and it leaves a command in flight for the engine's. -/
theorem writtenCommandIsCompleted : Obligations.WrittenCommandIsCompleted := by
  intro s v i rest hsched hb hh hd hl
  have hwrite := step_wr_cmd_of_legal (State.turn_of_not_busy hsched hb) hh hb hd hl
  have htail : s.sched.tail = [] := by rw [hsched]; rfl
  rw [run_succ hwrite, run_one, step_engine (State.turn_of_busy htail rfl) rfl rfl]
  congr 1
  simp [State.popTurn, State.answer, Block.latch, hsched]

/-- Settles O32, turn by turn: only the engine's could stop, and by R37 (a) it finds a command where BUSY = 1. -/
theorem noStepStopsUnderTheInvariant : Obligations.NoStepStopsUnderTheInvariant := by
  intro s hinv
  rcases ht : s.turn with _ | _ | _
  case host => exact ⟨_, step_host ht⟩
  case reset => exact ⟨_, step_reset ht⟩
  case engine =>
    rcases hb : s.blk.busy with _ | _
    · exact ⟨_, step_idle ht hb⟩
    · rcases hp : s.blk.pend with _ | ⟨i, x⟩
      · simp [hinv.rule37.busy_iff.mpr hp] at hb
      · exact ⟨_, (step_engine ht hb hp).trans (exec_eq i _)⟩

/-! The register window as tables (40_commands.md rules R110, R111). -/

/-- Settles O19: a read line is an admitted read, and each offset selects its register. -/
theorem regReadTable : Obligations.RegReadTable := by
  refine ⟨fun s off rest ht hh haligned => ?_, fun b => ⟨rfl, rfl, rfl, rfl, rfl, rfl, rfl, rfl, fun j => ?_⟩⟩
  · have hadm : accessAdmitted 4 off = true := accessAdmitted_iff.mpr ⟨rfl, haligned⟩
    refine ⟨_, step_rd ht hh, ?_⟩
    rw [State.access_read_of_admitted _ hadm]
    exact ⟨rfl, rfl⟩
  · exact congrArg b.readReg (regOf_offDigest j)

/-- A write to a register other than CMD and DATA is ignored (10_state.md rule R45). -/
theorem Block.writeReg_ignored (b : Block) (v : Word) {r : Reg} (hc : r ≠ .cmd) (hd : r ≠ .data) :
    b.writeReg v r = b := by
  cases r with
  | cmd => exact absurd rfl hc
  | data => exact absurd rfl hd
  | _ => rfl

/-- Settles O21: CMD and DATA by definition, and every other aligned offset selects a register that ignores writes. -/
theorem regWriteTable : Obligations.RegWriteTable := fun b v =>
  ⟨rfl, rfl, fun _ ha hcmd hdata =>
    have ⟨hc, hd⟩ := regOf_ne_of_aligned ha hcmd hdata
    b.writeReg_ignored v hc hd⟩

end Sys2Proof.Machine

namespace Sys2Proof.Machine

/-! The bytes of a unit: each is a pattern of leading bits above its payload bits (41_utf8_encoder.md rules R121, R122,
R125). -/

/-- A code point below `2 ^ k` is its low `k` bits, zero-extended. -/
theorem setWidth_lowBits {c : Word} (k : Nat) (h : c.toNat < 2 ^ k) : (c.extractLsb' 0 k).setWidth 32 = c := by
  apply BitVec.eq_of_toNat_eq
  simp [BitVec.extractLsb'_toNat, Nat.mod_eq_of_lt h, Nat.mod_eq_of_lt c.isLt]

/-- A continuation byte begins with the bits 10. -/
theorem continuation_lead (x : BitVec 6) : (0b10#2 ++ x).extractLsb 7 6 = 0b10#2 :=
  BitVec.extractLsb'_append_eq_left

/-- The leading bits of a byte are those of its pattern. -/
theorem getMsbD_pattern {n m : Nat} (pattern : BitVec n) (x : BitVec m) {k : Nat} (h : k < n) :
    (pattern ++ x).getMsbD k = pattern.getMsbD k := by
  rw [BitVec.getMsbD_append, if_neg (by omega)]

/-- A pattern of `n` 1 bits and a 0 above the payload gives a byte with `n` leading 1 bits and then a 0. -/
theorem leadingOnes_of_pattern {n m : Nat} {pattern : BitVec (n + 1)}
    (hp : (∀ k, k < n → pattern.getMsbD k = true) ∧ pattern.getMsbD n = false) (x : BitVec m) :
    (∀ k, k < n → (pattern ++ x).getMsbD k = true) ∧ (pattern ++ x).getMsbD n = false := by
  obtain ⟨hones, hzero⟩ := hp
  refine ⟨fun k hk => ?_, ?_⟩
  · rw [getMsbD_pattern pattern x (by omega), hones k hk]
  · rw [getMsbD_pattern pattern x (by omega), hzero]

/-- Settles O38: the failure is `utf8Encode_eq_none`, and the range of a unit's form fixes its class. -/
theorem encoderLengthClasses : Obligations.EncoderLengthClasses := by
  refine fun c => ⟨utf8Encode_eq_none, fun bs h => ?_⟩
  obtain ⟨hhi, rfl⟩ | ⟨hlo, hhi, rfl⟩ | ⟨hlo, hhi, rfl⟩ | ⟨hlo, -, rfl⟩ := utf8Encode_cases h
  · exact ⟨fun _ => ⟨rfl, BitVec.extractLsb'_append_eq_left⟩, by omega, by omega, by omega⟩
  · exact ⟨by omega, fun _ _ => ⟨rfl, BitVec.extractLsb'_append_eq_left⟩, by omega, by omega⟩
  · exact ⟨by omega, by omega, fun _ _ => ⟨rfl, BitVec.extractLsb'_append_eq_left⟩, by omega⟩
  · exact ⟨by omega, by omega, by omega, fun _ => ⟨rfl, BitVec.extractLsb'_append_eq_left⟩⟩

/-- Settles O39, form by form: the first byte's pattern is n 1 bits and a 0, and every other byte is a continuation. -/
theorem encoderUnitInvariants : Obligations.EncoderUnitInvariants := by
  intro c bs h
  obtain ⟨-, rfl⟩ | ⟨-, -, rfl⟩ | ⟨-, -, rfl⟩ | ⟨-, -, rfl⟩ := utf8Encode_cases h
  · exact ⟨by simp, fun _ => getMsbD_pattern _ _ (by decide), by simp⟩
  · exact ⟨by simp [continuation_lead], by simp, fun _ => leadingOnes_of_pattern (n := 2) (by decide) _⟩
  · exact ⟨by simp [continuation_lead], by simp, fun _ => leadingOnes_of_pattern (n := 3) (by decide) _⟩
  · exact ⟨by simp [continuation_lead], by simp, fun _ => leadingOnes_of_pattern (n := 4) (by decide) _⟩

/-- Settles O40: each byte's payload is its slice of the code point, and neighbouring slices join to its low bits. -/
theorem encoderPayload : Obligations.EncoderPayload := by
  intro c bs h
  obtain ⟨hhi, rfl⟩ | ⟨-, hhi, rfl⟩ | ⟨-, hhi, rfl⟩ | ⟨-, hhi, rfl⟩ := utf8Encode_cases h <;>
    simp (disch := decide) only [List.getD_cons_zero, List.getD_cons_succ, BitVec.extractLsb,
      BitVec.extractLsb'_append_eq_right, BitVec.extractLsb'_append_extractLsb'_eq_extractLsb']
  · exact ⟨fun _ => (setWidth_lowBits 7 (by omega)).symm, nofun, nofun, nofun⟩
  · exact ⟨nofun, fun _ => (setWidth_lowBits 11 (by omega)).symm, nofun, nofun⟩
  · exact ⟨nofun, nofun, fun _ => (setWidth_lowBits 16 (by omega)).symm, nofun⟩
  · exact ⟨nofun, nofun, nofun, fun _ => (setWidth_lowBits 21 (by omega)).symm⟩

/-! Injectivity and prefix-freeness (41_utf8_encoder.md rule R127), from the payload and the leading bits alone. -/

/-- A unit has one to four bytes (41_utf8_encoder.md rule R122). -/
theorem utf8Encode_length {c : Word} {bs : List Byte} (h : utf8Encode c = some bs) :
    bs.length = 1 ∨ bs.length = 2 ∨ bs.length = 3 ∨ bs.length = 4 := by
  obtain ⟨-, rfl⟩ | ⟨-, -, rfl⟩ | ⟨-, -, rfl⟩ | ⟨-, -, rfl⟩ := utf8Encode_cases h <;> simp

/-- The encoder is injective: a unit's length and payload bits determine its code point. -/
theorem utf8Encode_injective {c d : Word} {bs : List Byte} (hc : utf8Encode c = some bs)
    (hd : utf8Encode d = some bs) : c = d := by
  obtain ⟨c1, c2, c3, c4⟩ := encoderPayload c bs hc
  obtain ⟨d1, d2, d3, d4⟩ := encoderPayload d bs hd
  obtain hl | hl | hl | hl := utf8Encode_length hc
  · exact (c1 hl).trans (d1 hl).symm
  · exact (c2 hl).trans (d2 hl).symm
  · exact (c3 hl).trans (d3 hl).symm
  · exact (c4 hl).trans (d4 hl).symm

/-- The first byte of the shorter of two units has a 0 bit where the other's still has a leading 1. -/
theorem firstByte_ne_of_length_lt {c d : Word} {bs ds : List Byte} (hc : utf8Encode c = some bs)
    (hd : utf8Encode d = some ds) (hlt : bs.length < ds.length) : bs.getD 0 0#8 ≠ ds.getD 0 0#8 := by
  have hlen := utf8Encode_length hc
  obtain ⟨-, hsingle, hmany⟩ := encoderUnitInvariants c bs hc
  obtain ⟨-, -, hmany'⟩ := encoderUnitInvariants d ds hd
  obtain ⟨hones, -⟩ := hmany' (by omega)
  intro he
  by_cases h1 : bs.length = 1
  · exact Bool.false_ne_true ((hsingle h1).symm.trans (he ▸ hones 0 (by omega)))
  · obtain ⟨-, hzero⟩ := hmany (by omega)
    exact Bool.false_ne_true (hzero.symm.trans (he ▸ hones _ hlt))

/-- Units with the same first byte have the same length. -/
theorem length_eq_of_firstByte_eq {c d : Word} {bs ds : List Byte} (hc : utf8Encode c = some bs)
    (hd : utf8Encode d = some ds) (he : bs.getD 0 0#8 = ds.getD 0 0#8) : bs.length = ds.length := by
  obtain hlt | heq | hgt := Nat.lt_trichotomy bs.length ds.length
  · exact absurd he (firstByte_ne_of_length_lt hc hd hlt)
  · exact heq
  · exact absurd he.symm (firstByte_ne_of_length_lt hd hc hgt)

/-- A byte that begins with 10 has its first bit set and its second clear. -/
theorem getMsbD_of_continuation {x : Byte} (h : x.extractLsb 7 6 = 0b10#2) :
    x.getMsbD 0 = true ∧ x.getMsbD 1 = false := by
  have hx : x = 0b10#2 ++ x.extractLsb 5 0 := by
    rw [← h]
    exact (BitVec.extractLsb'_append_extractLsb' (w := 2) (len := 6)).symm
  rw [hx]
  exact ⟨getMsbD_pattern _ _ (by decide), getMsbD_pattern _ _ (by decide)⟩

/-- No unit begins with a continuation byte: a first byte that begins with 1 begins with 11. -/
theorem firstByte_not_continuation {c : Word} {bs : List Byte} (h : utf8Encode c = some bs) :
    (bs.getD 0 0#8).extractLsb 7 6 ≠ 0b10#2 := by
  intro hx
  obtain ⟨hone, hzero⟩ := getMsbD_of_continuation hx
  have hlen := utf8Encode_length h
  obtain ⟨-, hsingle, hmany⟩ := encoderUnitInvariants c bs h
  by_cases h1 : bs.length = 1
  · exact Bool.false_ne_true ((hsingle h1).symm.trans hone)
  · obtain ⟨hones, -⟩ := hmany (by omega)
    exact Bool.false_ne_true (hzero.symm.trans (hones 1 (by omega)))

/-- The units are prefix-free: a unit that is a prefix of another has its first byte, hence its length, hence is that
unit (41_utf8_encoder.md rule R127). -/
theorem utf8Encode_prefix_free {c d : Word} {bs ds : List Byte} (hc : utf8Encode c = some bs)
    (hd : utf8Encode d = some ds) (hp : bs <+: ds) : c = d := by
  have hfirst : bs.getD 0 0#8 = ds.getD 0 0#8 := by
    obtain ⟨ts, rfl⟩ := hp
    have hlen := utf8Encode_length hc
    exact (List.getD_append bs ts _ 0 (by omega)).symm
  obtain rfl := hp.eq_of_length (length_eq_of_firstByte_eq hc hd hfirst)
  exact utf8Encode_injective hc hd

theorem messageOf_cons_ne_nil {c : Word} (h : c.toNat ≤ maxCodePoint) (cs : List Word) : messageOf (c :: cs) ≠ [] := by
  rw [messageOf_cons]
  exact List.append_ne_nil_of_left_ne_nil (utf8Bytes_ne_nil h) _

/-- The message determines its code points: the first units of two equal messages are prefixes of one list, so one is a
prefix of the other. -/
theorem messageOf_injective : ∀ {cs ds : List Word}, (∀ c ∈ cs, c.toNat ≤ maxCodePoint) →
    (∀ d ∈ ds, d.toNat ≤ maxCodePoint) → messageOf cs = messageOf ds → cs = ds
  | [], [], _, _, _ => rfl
  | [], _ :: ds, _, hds, h => absurd h.symm (messageOf_cons_ne_nil (List.forall_mem_cons.mp hds).1 ds)
  | _ :: cs, [], hcs, _, h => absurd h (messageOf_cons_ne_nil (List.forall_mem_cons.mp hcs).1 cs)
  | c :: cs, d :: ds, hcs, hds, h => by
    obtain ⟨hc, hcs'⟩ := List.forall_mem_cons.mp hcs
    obtain ⟨hd, hds'⟩ := List.forall_mem_cons.mp hds
    rw [messageOf_cons, messageOf_cons] at h
    have hcd : c = d := by
      have hc := utf8Encode_eq_some hc
      have hd := utf8Encode_eq_some hd
      obtain hp | hp := List.prefix_or_prefix_of_prefix ⟨_, h⟩ (List.prefix_append _ _)
      · exact utf8Encode_prefix_free hc hd hp
      · exact (utf8Encode_prefix_free hd hc hp).symm
    subst hcd
    have htail : messageOf cs = messageOf ds := List.append_cancel_left h
    rw [messageOf_injective hcs' hds' htail]

/-- Settles O41: units are told apart by their first bytes, and messages unit by unit. -/
theorem messageDeterminesTheCodePoints : Obligations.MessageDeterminesTheCodePoints :=
  ⟨fun _ _ _ _ hc hd =>
    ⟨firstByte_not_continuation hc, length_eq_of_firstByte_eq hc hd, utf8Encode_prefix_free hc hd⟩,
    fun _ _ => messageOf_injective⟩

end Sys2Proof.Machine

namespace Sys2Proof.Machine

/-! The words of a block, and the blocks of a byte string (42_padding_parsing.md rule R142, 20_memory.md rule R54). -/

/-- Byte k of a word of a block, most significant first: the bytes after it stand below it, those before it above
(20_memory.md rule R54). -/
theorem blockWord_byte (f : Nat → Byte) (j : Nat) {k : Nat} (hk : k < 4) :
    (blockWord f j).extractLsb' (24 - 8 * k) 8 = f (4 * j + k) := by
  interval_cases k
  · exact (BitVec.extractLsb'_append_eq_of_le (by decide)).trans
      ((BitVec.extractLsb'_append_eq_of_le (by decide)).trans BitVec.extractLsb'_append_eq_left)
  · exact (BitVec.extractLsb'_append_eq_of_le (by decide)).trans
      ((BitVec.extractLsb'_append_eq_of_le (by decide)).trans BitVec.extractLsb'_append_eq_right)
  · exact (BitVec.extractLsb'_append_eq_of_le (by decide)).trans BitVec.extractLsb'_append_eq_right
  · exact BitVec.extractLsb'_append_eq_right

theorem blockWords_getElem (f : Nat → Byte) (j : Fin 16) : (blockWords f)[j] = blockWord f j.val := by
  simp [blockWords]

/-- The blocks of a byte string by index. -/
theorem parseBlocks_getElem? (p : List Byte) {i : Nat} (h : i < p.length / 64) :
    (parseBlocks p)[i]? = some (blockOf p i) := by
  simp [parseBlocks, h]

/-- Byte k of word j of block i of a byte string is its byte 64i + 4j + k. -/
theorem blockOf_byte (p : List Byte) {i : Nat} (h : i < p.length / 64) (j : Fin 16) {k : Nat} (hk : k < 4) :
    p[64 * i + 4 * j.val + k]? = some ((blockOf p i)[j].extractLsb' (24 - 8 * k) 8) := by
  have hj := j.isLt
  have hlt : 64 * i + 4 * j.val + k < p.length := by omega
  rw [blockOf, blockWords_getElem, blockWord_byte _ _ hk, ← Nat.add_assoc, List.getElem?_eq_getElem hlt,
    List.getD_eq_getElem _ _ hlt]

/-! Absorption of a whole message (42_padding_parsing.md rules R140, R141). -/

/-- `append` does not look at the counters L and OVF (42_padding_parsing.md rule R141). -/
theorem Block.append_withCounters (b : Block) (l : BitVec 64) (o : Bool) (x : Byte) :
    ({ b with l := l, ovf := o } : Block).append x = { b.append x with l := l, ovf := o } := by
  by_cases h : b.p = 63#6
  · rw [Block.append_of_eq x h]; exact Block.append_of_eq x h
  · rw [Block.append_of_ne x h]; exact Block.append_of_ne x h

theorem Block.appendAll_withCounters (xs : List Byte) (b : Block) (l : BitVec 64) (o : Bool) :
    ({ b with l := l, ovf := o } : Block).appendAll xs = { b.appendAll xs with l := l, ovf := o } := by
  induction xs generalizing b with
  | nil => rfl
  | cons x xs ih => rw [Block.appendAll_cons, Block.append_withCounters, ih, Block.appendAll_cons]

/-- What is appended after absorbing bytes continues their stream. -/
theorem Block.appendAll_absorbAll (b : Block) (xs ys : List Byte) :
    (b.absorbAll xs).appendAll ys =
      { b.appendAll (xs ++ ys) with l := (b.absorbAll xs).l, ovf := (b.absorbAll xs).ovf } := by
  conv_lhs => rw [Block.absorbAll_eq_appendAll, Block.appendAll_withCounters]
  rw [Block.appendAll_append]

/-- OVF after absorbing any number of bytes says that it was set or the true bit length reached 2^64 (10_state.md rule
R27): once it did, the wrapped counter no longer matters. -/
theorem Block.absorbAll_ovf_iff (xs : List Byte) (b : Block) :
    (b.absorbAll xs).ovf = true ↔ b.ovf = true ∨ 2 ^ 64 ≤ b.l.toNat + 8 * xs.length := by
  induction xs generalizing b with
  | nil =>
    have : ¬ 2 ^ 64 ≤ b.l.toNat + 8 * ([] : List Byte).length := Nat.not_le.mpr b.l.isLt
    rw [Block.absorbAll_nil, or_iff_left this]
  | cons x xs ih =>
    have hl := b.l.isLt
    have hnext : (lenNext b.l).toNat = (b.l.toNat + 8) % 2 ^ 64 := by rw [lenNext_eq, BitVec.toNat_add]; rfl
    rw [Block.absorbAll_cons, ih, Block.absorb_ovf, Block.absorb_l, Bool.or_eq_true, lenCarry_eq,
      decide_eq_true_iff, or_assoc, hnext, List.length_cons]
    refine or_congr_right ?_
    omega

/-- INIT leaves no valid byte (40_commands.md rule R101). -/
@[simp] theorem Block.initEffect_valid (b : Block) : b.initEffect.valid = [] := rfl

/-- Pushing code points within the limit absorbs their message (41_utf8_encoder.md rule R128). -/
theorem Block.foldl_pushEffect {cs : List Word} (h : ∀ c ∈ cs, c.toNat ≤ maxCodePoint) (b : Block) :
    cs.foldl (fun x c => x.pushEffect c) b = b.absorbAll (messageOf cs) := by
  induction cs generalizing b with
  | nil => rfl
  | cons c cs ih =>
    obtain ⟨hc, hcs⟩ := List.forall_mem_cons.mp h
    rw [List.foldl_cons, Block.pushEffect_of_le b hc, ih hcs, messageOf_cons, Block.absorbAll_append]

/-- L after INIT and a message is its bit length modulo 2^64 (10_state.md rule R26). -/
theorem Block.initEffect_absorbAll_l (b : Block) (m : List Byte) :
    (b.initEffect.absorbAll m).l = BitVec.ofNat 64 (8 * m.length) := by
  rw [Block.absorbAll_l, Block.initEffect_l, BitVec.zero_add]

/-- OVF after INIT and a message says whether its bit length reached 2^64 (10_state.md rule R27). -/
theorem Block.initEffect_absorbAll_ovf (b : Block) (m : List Byte) :
    (b.initEffect.absorbAll m).ovf = decide (2 ^ 64 ≤ 8 * m.length) := by
  rw [Bool.eq_iff_iff, Block.absorbAll_ovf_iff, decide_eq_true_iff]
  simp

/-- Settles O44: the pushes absorb the message, a stream that starts with no valid byte. -/
theorem pushesAbsorbTheMessage : Obligations.PushesAbsorbTheMessage := by
  intro b cs hcs
  simp only [Block.foldl_pushEffect hcs]
  obtain ⟨hh, hvalid, hcount⟩ := b.initEffect.appendAll_stream (messageOf cs)
  rw [Block.initEffect_valid, List.nil_append] at hh hvalid hcount
  refine ⟨?_, ?_, b.initEffect_absorbAll_l _, b.initEffect_absorbAll_ovf _, ?_, ?_⟩
  · rw [Block.absorbAll_h, hh, Block.initEffect_h]
  · rw [Block.absorbAll_valid, hvalid]
  · rw [Block.absorbAll_compressions, hcount, Block.initEffect_compressions]
  · rw [Block.absorbAll_state, Block.initEffect_state]

/-! FINAL after a whole message (42_padding_parsing.md rules R144 to R147). -/

/-- Behind the absorbed message FINAL's padding makes the document's padded message: P and L are its length. -/
theorem Block.append_padding_eq_padBytes (b : Block) (m : List Byte) :
    m ++ (b.initEffect.absorbAll m).padding = padBytes m := by
  have hp : (b.initEffect.absorbAll m).p.toNat = m.length % 64 := by
    rw [Block.absorbAll_p, Block.appendAll_p_toNat, Block.initEffect_p]; simp
  have hz : ((55 - ((m.length % 64 : Nat) : Int)) % 64).toNat = ((55 - (m.length : Int)) % 64).toNat := by omega
  rw [Block.padding, zerosNeeded_eq, hp, hz, Block.initEffect_absorbAll_l, padBytes]
  simp

theorem padBytes_length (m : List Byte) :
    (padBytes m).length = m.length + 1 + ((55 - (m.length : Int)) % 64).toNat + 8 := by
  simp [padBytes, lengthBytes]; omega

/-- The number of blocks of the padded message (42_padding_parsing.md rule R146). -/
theorem padBytes_length_div (m : List Byte) : (padBytes m).length / 64 = (m.length + 8) / 64 + 1 := by
  rw [padBytes_length]; omega

/-- After INIT and a message below the limit FINAL has compressed the padded message's blocks and is done. -/
theorem Block.finalEffect_absorbAll (b : Block) {m : List Byte} (h : 8 * m.length < 2 ^ 64) :
    let b' := (b.initEffect.absorbAll m).finalEffect
    b'.state = .done ∧ b'.p = 0#6 ∧ b'.h = compressBlocks iv (parseBlocks (padBytes m)) ∧
      b'.compressions = b.compressions + (padBytes m).length / 64 := by
  have hovf : (b.initEffect.absorbAll m).ovf = false := by
    rw [Block.initEffect_absorbAll_ovf]; exact decide_eq_false (by omega)
  obtain ⟨hh, -, hcount⟩ := b.initEffect.appendAll_stream (padBytes m)
  rw [Block.initEffect_valid, List.nil_append] at hh hcount
  have hrun := b.initEffect.appendAll_absorbAll m (b.initEffect.absorbAll m).padding
  rw [Block.append_padding_eq_padBytes] at hrun
  rw [Block.finalEffect_of_not_ovf hovf]
  refine ⟨rfl, Block.appendAll_padding_p _, ?_, ?_⟩
  · simp only [hrun, hh, Block.initEffect_h]
  · simp only [hrun, hcount, Block.initEffect_compressions]

/-- Settles O45: FINAL completes the absorbed stream to the padded message, and a stream's blocks are read byte by
byte. -/
theorem incrementalFormIsTheDocuments : Obligations.IncrementalFormIsTheDocuments := by
  refine ⟨?_, parseBlocks_length, ?_, ?_⟩
  · intro b cs hcs hlen
    simp only [Block.foldl_pushEffect hcs]
    obtain ⟨hstate, hp, hh, hcount⟩ := b.finalEffect_absorbAll hlen
    rw [padBytes_length_div, ← Nat.add_assoc] at hcount
    exact ⟨hstate, hp, hh, by rw [parseBlocks_length, padBytes_length_div], hcount⟩
  · exact fun p i hi => ⟨blockOf p i, parseBlocks_getElem? p hi, fun j k hk => blockOf_byte p hi j hk⟩
  · intro f j k hk
    rw [blockWords_getElem, blockWord_byte f j hk]

/-! The padding as bits and as bytes (42_padding_parsing.md rules R143, R144). -/

theorem lengthBits_length (n : Nat) : (lengthBits n).length = 64 := by simp [lengthBits]

theorem padBits_length (m : List Bool) :
    (padBits m).length = m.length + 1 + ((447 - (m.length : Int)) % 512).toNat + 64 := by
  simp [padBits, lengthBits_length]; omega

/-- Bit i of the length field is bit 63 - i of the length. -/
theorem lengthBits_getElem? (n : Nat) {i : Nat} (hi : i < 64) :
    (lengthBits n)[i]? = some ((BitVec.ofNat 64 n).getLsbD (63 - i)) := by
  simp [lengthBits, BitVec.getMsbD, hi]

/-- Settles O42: k is the residue of 447 minus the length, so no smaller number is congruent to it. -/
theorem paddingIsMinimal : Obligations.PaddingIsMinimal := by
  intro m
  have hlen := padBits_length m
  exact ⟨((447 - (m.length : Int)) % 512).toNat, rfl, by omega, fun j hj => by omega, by omega, hlen, by omega,
    fun i hi => lengthBits_getElem? m.length hi⟩

@[simp] theorem bitsOf_append (xs ys : List Byte) : bitsOf (xs ++ ys) = bitsOf xs ++ bitsOf ys := List.flatMap_append

@[simp] theorem bitsOf_length (m : List Byte) : (bitsOf m).length = 8 * m.length := by
  simp [bitsOf, bitsOfByte, Nat.mul_comm]

theorem bitsOf_replicate_zero (n : Nat) : bitsOf (List.replicate n 0x00#8) = List.replicate (8 * n) false := by
  induction n with
  | zero => rfl
  | succ n ih =>
    rw [List.replicate_succ, ← List.singleton_append, bitsOf_append, ih, Nat.mul_succ, Nat.add_comm,
      List.replicate_add]
    rfl

/-- The bits of byte i of a 64-bit word, most significant byte and bit first (20_memory.md rules R53, R55). -/
theorem bitsOfByte_extractLsb' (l : BitVec 64) {i : Nat} (hi : i < 8) :
    bitsOfByte (l.extractLsb' (56 - 8 * i) 8) = (List.range 8).map fun j => l.getMsbD (8 * i + j) := by
  refine List.map_congr_left fun j hj => ?_
  have hj := List.mem_range.mp hj
  rw [BitVec.getMsbD_extractLsb', decide_eq_true hj, decide_eq_true (by omega), Bool.true_and, Bool.true_and]
  congr 1
  omega

/-- The eight length bytes are the 64-bit big-endian length field (20_memory.md rule R55). -/
theorem bitsOf_lengthBytes (n : Nat) : bitsOf (lengthBytes (BitVec.ofNat 64 n)) = lengthBits n := by
  have hbytes (l : BitVec 64) : lengthBytes l = (List.range 8).map fun i => l.extractLsb' (56 - 8 * i) 8 := rfl
  have hbits (g : Nat → Bool) :
      (List.range 64).map g = (List.range 8).flatMap fun i => (List.range 8).map fun j => g (8 * i + j) := rfl
  rw [hbytes, bitsOf, List.flatMap_map, lengthBits, hbits]
  exact List.flatMap_congr fun i hi => bitsOfByte_extractLsb' _ (List.mem_range.mp hi)

/-- The bits of the byte form of the padding are the bit form, k being 7 + 8z (42_padding_parsing.md rule R144). -/
theorem bitsOf_padBytes (m : List Byte) : bitsOf (padBytes m) = padBits (bitsOf m) := by
  have hk : ((447 - ((8 * m.length : Nat) : Int)) % 512).toNat = 7 + 8 * ((55 - (m.length : Int)) % 64).toNat := by
    omega
  have h80 : bitsOf [0x80#8] = [true] ++ List.replicate 7 false := by decide
  simp only [padBytes, padBits, bitsOf_append, bitsOf_replicate_zero, bitsOf_lengthBytes, bitsOf_length, h80, hk,
    List.replicate_add, List.append_assoc]

/-- Settles O43: the byte form's 0x80 is the 1 bit and the first seven of the k zero bits, its z zero bytes are the
others. -/
theorem bytePaddingIsBitPadding : Obligations.BytePaddingIsBitPadding := by
  intro m
  have hlen := padBytes_length m
  exact ⟨bitsOf_padBytes m, hlen, by omega⟩

end Sys2Proof.Machine

namespace Sys2Proof.Machine

/-! The word functions bit by bit (43_compression.md rules R163 to R166). -/

/-- A rotation takes bit i from i + n, wrapping at 32 (00_scope.md rule R10). -/
theorem rotr_getLsbD (x : Word) {n i : Nat} (hn : n ≤ 31) (hi : i < 32) :
    (rotr x n).getLsbD i = x.getLsbD ((i + n) % 32) := by
  rw [rotr, BitVec.getLsbD_or, BitVec.getLsbD_ushiftRight, BitVec.getLsbD_shiftLeft]
  by_cases h : i + n < 32
  · have hlow : i < 32 - n := by omega
    simp [hlow, Nat.mod_eq_of_lt h, Nat.add_comm n i]
  · have hhigh : ¬ i < 32 - n := by omega
    have hmod : (i + n) % 32 = i - (32 - n) := by omega
    rw [BitVec.getLsbD_of_ge x (n + i) (by omega)]
    simp [hhigh, hmod, hi]

/-- A logical shift takes bit i from i + n, and 0 from beyond bit 31 (00_scope.md rule R10). -/
theorem ushiftRight_getLsbD (x : Word) (n i : Nat) :
    (x >>> n).getLsbD i = (decide (i + n < 32) && x.getLsbD (i + n)) := by
  rw [BitVec.getLsbD_ushiftRight, Nat.add_comm n i]
  by_cases h : i + n < 32
  · simp [h]
  · simp [h, BitVec.getLsbD_of_ge x (i + n) (by omega)]

/-- Settles O48: each function is an exclusive or of rotations and at most one shift, whose bits are known. -/
theorem wordFunctionsBitwise : Obligations.WordFunctionsBitwise := by
  refine ⟨fun x n i _ hn hi => rotr_getLsbD x hn hi, fun x i hi => ?_⟩
  simp only [sigma0, sigma1, bigSigma0, bigSigma1, BitVec.getLsbD_xor, rotr_getLsbD, ushiftRight_getLsbD, hi,
    Nat.reduceLeDiff, and_self]

/-! Ch and Maj bit by bit (43_compression.md rules R167, R168). -/

theorem ch_getLsbD (x y z : Word) {i : Nat} (hi : i < 32) :
    (ch x y z).getLsbD i = if x.getLsbD i then y.getLsbD i else z.getLsbD i := by
  rw [ch, BitVec.getLsbD_xor, BitVec.getLsbD_and, BitVec.getLsbD_and, BitVec.getLsbD_not]
  cases x.getLsbD i <;> simp [hi]

theorem maj_getLsbD (x y z : Word) (i : Nat) :
    (maj x y z).getLsbD i =
      ((x.getLsbD i && y.getLsbD i) ^^ (x.getLsbD i && z.getLsbD i) ^^ (y.getLsbD i && z.getLsbD i)) := by
  simp only [maj, BitVec.getLsbD_xor, BitVec.getLsbD_and]

/-- The exclusive or of the pairwise products of three bits is their majority. -/
theorem majority_iff : ∀ a b c : Bool,
    ((a && b) ^^ (a && c) ^^ (b && c)) = true ↔ 2 ≤ a.toNat + b.toNat + c.toNat := by decide

/-- Settles O49: Ch and Maj act on each bit alone, and Maj there is the majority of three bits. -/
theorem chSelectsAndMajIsTheMajority : Obligations.ChSelectsAndMajIsTheMajority := fun x y z i hi =>
  ⟨ch_getLsbD x y z hi, by rw [maj_getLsbD, majority_iff]⟩

/-! The message schedule (43_compression.md rule R170). -/

/-- The words a shorter schedule holds are those of the whole one: later words are only put behind them. -/
theorem scheduleFrom_getElem?_eq (m : Vector Word 16) {n t : Nat} (hn : n ≤ 48) (ht : t < 16 + n) :
    (scheduleFrom m n)[t]? = (schedule m)[t]? := by
  obtain ⟨k, hk⟩ := Nat.exists_eq_add_of_le hn
  rw [schedule, hk, scheduleFrom_getElem? m n k t ht]

theorem scheduleFrom_getD_eq (m : Vector Word 16) {n t : Nat} (hn : n ≤ 48) (ht : t < 16 + n) (d : Word) :
    (scheduleFrom m n).getD t d = (schedule m).getD t d := by
  simp only [List.getD_eq_getElem?_getD, scheduleFrom_getElem?_eq m hn ht]

/-- The word put behind `w`, which is word number `w.length`. -/
theorem scheduleNext_getElem?_length (w : List Word) :
    (scheduleNext w)[w.length]? = some
      (sigma1 (w.getD (w.length - 2) 0#32) + w.getD (w.length - 7) 0#32 + sigma0 (w.getD (w.length - 15) 0#32) +
        w.getD (w.length - 16) 0#32) := by
  rw [scheduleNext]; exact List.getElem?_concat_length

theorem schedule_block_word (m : Vector Word 16) (t : Fin 16) : (schedule m)[t.val]? = some m[t] := by
  rw [← scheduleFrom_getElem?_eq m (Nat.zero_le 48) t.isLt, scheduleFrom, Vector.getElem?_toList]
  exact Vector.getElem?_eq_getElem t.isLt

/-- The recurrence at word 16 + n: the word is put behind a schedule of exactly that many words. -/
theorem schedule_later_word (m : Vector Word 16) {t : Nat} (hlo : 16 ≤ t) (hhi : t < 64) :
    (schedule m)[t]? = some
      (sigma1 ((schedule m).getD (t - 2) 0#32) + (schedule m).getD (t - 7) 0#32 +
        sigma0 ((schedule m).getD (t - 15) 0#32) + (schedule m).getD (t - 16) 0#32) := by
  obtain ⟨n, rfl⟩ := Nat.exists_eq_add_of_le hlo
  have hnew := scheduleNext_getElem?_length (scheduleFrom m n)
  have hearlier : ∀ j, 0 < j → (scheduleFrom m n).getD (16 + n - j) 0#32 = (schedule m).getD (16 + n - j) 0#32 :=
    fun j hj => scheduleFrom_getD_eq m (by omega) (by omega) _
  rw [scheduleFrom_length, hearlier 2 (by decide), hearlier 7 (by decide), hearlier 15 (by decide),
    hearlier 16 (by decide)] at hnew
  rw [← scheduleFrom_getElem?_eq m (n := n + 1) (by omega) (by omega)]
  exact hnew

/-- Settles O50: the block's words are the schedule's first, and each later word was put behind all earlier ones. -/
theorem scheduleRecurrence : Obligations.ScheduleRecurrence := fun m =>
  ⟨scheduleFrom_length m 48, schedule_block_word m, fun _ hlo hhi => schedule_later_word m hlo (by omega)⟩

/-! The constants (43_compression.md rules R161, R162; log entry 13). -/

/-- The first sixty-four primes, eight to a row as in the table of K. -/
def firstPrimes : Vector Nat 64 :=
  #v[2, 3, 5, 7, 11, 13, 17, 19,
    23, 29, 31, 37, 41, 43, 47, 53,
    59, 61, 67, 71, 73, 79, 83, 89,
    97, 101, 103, 107, 109, 113, 127, 131,
    137, 139, 149, 151, 157, 163, 167, 173,
    179, 181, 191, 193, 197, 199, 211, 223,
    227, 229, 233, 239, 241, 251, 257, 263,
    269, 271, 277, 281, 283, 293, 307, 311]

/-- A composite number below 18^2 has a divisor below 18, so the primes below 312 need no longer trial division. -/
theorem prime_iff_trial_division {p : Nat} (hp : p < 18 * 18) :
    Nat.Prime p ↔ 2 ≤ p ∧ ∀ m < 18, 2 ≤ m → m < p → ¬ m ∣ p := by
  constructor
  · intro h
    obtain ⟨h2, hdvd⟩ := Nat.prime_def_lt'.mp h
    exact ⟨h2, fun m _ => hdvd m⟩
  · rintro ⟨h2, hdvd⟩
    exact Nat.prime_def_le_sqrt.mpr ⟨h2, fun m hm hsqrt =>
      hdvd m (hsqrt.trans_lt (Nat.sqrt_lt.mpr hp)) hm (hsqrt.trans_lt (Nat.sqrt_lt_self h2))⟩

theorem filter_prime_range_eq_firstPrimes : (List.range 312).filter Nat.Prime = firstPrimes.toList := by
  have htrial : (List.range 312).filter Nat.Prime =
      (List.range 312).filter fun p => 2 ≤ p ∧ ∀ m < 18, 2 ≤ m → m < p → ¬ m ∣ p :=
    List.filter_congr fun p hp =>
      decide_eq_decide.mpr (prime_iff_trial_division ((List.mem_range.mp hp).trans (by decide)))
  rw [htrial]
  decide

theorem filter_prime_range_getElem? (t : Fin 64) :
    ((List.range 312).filter Nat.Prime)[t.val]? = some firstPrimes[t] := by
  rw [filter_prime_range_eq_firstPrimes, Vector.getElem?_toList]
  exact Vector.getElem?_eq_getElem t.isLt

/-- `r` is the floor of 2^32 times the root of `p` of degree `e`. -/
abbrev IsScaledRoot (e p r : Nat) : Prop := r ^ e ≤ p * 2 ^ (32 * e) ∧ p * 2 ^ (32 * e) < (r + 1) ^ e

/-- The integer part of the square root of a prime up to 19 is at most 4. -/
theorem iv_isScaledRoot :
    ∀ j : Fin 8, ∃ n ≤ 4, IsScaledRoot 2 firstPrimes[j.val] (n * 2 ^ 32 + iv[j].toNat) := by
  decide

/-- The integer part of the cube root of a prime up to 311 is at most 6. -/
theorem kConst_isScaledRoot :
    ∀ t : Fin 64, ∃ n ≤ 6, IsScaledRoot 3 firstPrimes[t] (n * 2 ^ 32 + (kConst t.val).toNat) := by
  decide

/-- Settles O47: the primes below 312 by trial division, and each word's root bounds by evaluation. -/
theorem constantsAreRootFractions : Obligations.ConstantsAreRootFractions := by
  refine ⟨?count, rfl, fun j hj => ?iv, fun t ht => ?k⟩
  case count => rw [filter_prime_range_eq_firstPrimes, Vector.length_toList]
  case iv =>
    obtain ⟨n, -, hroot⟩ := iv_isScaledRoot ⟨j, hj⟩
    exact ⟨n, _, filter_prime_range_getElem? ⟨j, by omega⟩, hroot⟩
  case k =>
    obtain ⟨n, -, hroot⟩ := kConst_isScaledRoot ⟨t, ht⟩
    exact ⟨n, _, filter_prime_range_getElem? ⟨t, ht⟩, hroot⟩

/-! The rounds (43_compression.md rules R171 to R174). -/

/-- Settles O51: the sequence is that of the model's rounds. -/
theorem compressIsTheSixtyFourRounds : Obligations.CompressIsTheSixtyFourRounds := fun h m =>
  ⟨(Vars.load h).rounds (schedule m), rfl, fun t _ => Vars.rounds_succ _ _ t, rfl⟩

end Sys2Proof.Machine

namespace Sys2Proof.Machine

/-! The digest after FINAL (44_digest.md rule R190). -/

/-- A DIGEST register shows STATE and H alone (10_state.md rule R44). -/
theorem Block.readReg_digest_congr {b c : Block} (hs : b.state = c.state) (hh : b.h = c.h) (j : Fin 8) :
    b.readReg (.digest j) = c.readReg (.digest j) := by
  simp only [Block.readReg, hs, hh]

/-- Settles O34, agent by agent: a host turn writes neither STATE nor H, and of the commands that could, PUSH_CP and
FINAL are not legal in DONE. -/
theorem digestStaysUntilInitOrReset : Obligations.DigestStaysUntilInitOrReset := by
  intro s t hinv hdone h
  have kept (hs : t.blk.state = s.blk.state) (hh : t.blk.h = s.blk.h) :
      t.blk.state = .done ∧ ∀ j : Fin 8, t.blk.readReg (.digest j) = s.blk.readReg (.digest j) :=
    ⟨hs.trans hdone, Block.readReg_digest_congr hs hh⟩
  obtain ⟨-, rfl⟩ | ⟨hreset, -⟩ | ⟨-, -, rfl⟩ | ⟨i, x, hturn, hb, hp, rfl⟩ := step_cases h
  · obtain ⟨d, r, q, u, hw, -⟩ := s.popTurn.hostTurn_writes
    exact .inl (kept (by rw [hw]; rfl) (by rw [hw]; rfl))
  · exact .inr (.inr hreset)
  · exact .inl (kept rfl rfl)
  · have hlegal := legalIn_iff.mp (hinv.pendLegal _ hp)
    obtain rfl | rfl | habsorb := hlegal
    · exact .inl (kept rfl rfl)
    · exact .inr (.inl (completes_of_pend hturn hb hp))
    · rw [hdone] at habsorb; cases habsorb

/-! The host's rendering of the digest (44_digest.md rule R192; log entry 13). -/

/-- The digit of a value is the one that stands at its place in the list of digits. -/
theorem getElem?_digits_eq_nib (v : BitVec 4) :
    ['0', '1', '2', '3', '4', '5', '6', '7', '8', '9', 'a', 'b', 'c', 'd', 'e', 'f'][v.toNat]? = some (nib v) := by
  revert v; decide

theorem nib_injective {v w : BitVec 4} (h : nib v = nib w) : v = w := by
  revert v w; decide

/-- Digit k of a word is that of its nibble k, the most significant first. -/
theorem hex8_eq_map (w : Word) : hex8 w = (List.range 8).map fun k => nib (w.extractLsb' (28 - 4 * k) 4) := rfl

@[simp] theorem hex8_length (w : Word) : (hex8 w).length = 8 := rfl

/-- A word is determined by its nibbles: bit i stands in nibble i / 4 from below. -/
theorem eq_of_nibbles_eq {v w : Word}
    (h : ∀ k, k < 8 → v.extractLsb' (28 - 4 * k) 4 = w.extractLsb' (28 - 4 * k) 4) : v = w := by
  apply BitVec.eq_of_getLsbD_eq
  intro i hi
  have hbit := congrArg (·.getLsbD (i % 4)) (h (7 - i / 4) (by omega))
  have hplace : 28 - 4 * (7 - i / 4) + i % 4 = i := by omega
  have hin : i % 4 < 4 := by omega
  simpa [BitVec.getLsbD_extractLsb', hplace, hin] using hbit

/-- Where every element gives n results, result k of element j stands at place n * j + k. -/
theorem getElem?_flatMap_of_length {α β : Type} {f : α → List β} {n : Nat} (hf : ∀ x, (f x).length = n) (xs : List α)
    (j : Nat) {k : Nat} (hk : k < n) : (xs.flatMap f)[n * j + k]? = xs[j]?.bind fun x => (f x)[k]? := by
  induction xs generalizing j with
  | nil => simp
  | cons x xs ih =>
    rw [List.flatMap_cons]
    cases j with
    | zero => rw [List.getElem?_append_left (by rw [hf]; omega)]; simp
    | succ j =>
      have hplace : n * (j + 1) + k - n = n * j + k := by rw [Nat.mul_succ]; omega
      rw [List.getElem?_append_right (by rw [hf, Nat.mul_succ]; omega), hf, hplace, ih, List.getElem?_cons_succ]

/-- Character 8j + k of the rendering is digit k of word j. -/
theorem hexDigest_getElem? (d : Vector Word 8) (j : Fin 8) {k : Nat} (hk : k < 8) :
    (hexDigest d)[8 * j.val + k]? = some (nib (d[j].extractLsb' (28 - 4 * k) 4)) := by
  have hj := j.isLt
  rw [hexDigest, getElem?_flatMap_of_length hex8_length _ _ hk]
  simp [hex8_eq_map, hk]

theorem hexDigest_length (d : Vector Word 8) : (hexDigest d).length = 64 := by
  simp [hexDigest]

/-- The rendering is injective: its characters give every nibble of every word back. -/
theorem hexDigest_injective {d e : Vector Word 8} (h : hexDigest d = hexDigest e) : d = e := by
  apply Vector.ext
  intro j hj
  refine eq_of_nibbles_eq fun k hk => nib_injective (Option.some.inj ?_)
  exact (hexDigest_getElem? d ⟨j, hj⟩ hk).symm.trans (h ▸ hexDigest_getElem? e ⟨j, hj⟩ hk)

/-- Settles O52: the characters by word and nibble, each the digit at its nibble's place, and `hexDigest_injective`. -/
theorem hexRenderingIsFaithful : Obligations.HexRenderingIsFaithful := by
  refine ⟨fun d => ⟨hexDigest_length d, fun x hx => ?_, fun j k hk => ?_⟩, fun d e => hexDigest_injective⟩
  · obtain ⟨w, -, hxw⟩ := List.mem_flatMap.mp hx
    rw [hex8_eq_map] at hxw
    obtain ⟨k, -, rfl⟩ := List.mem_map.mp hxw
    exact List.mem_of_getElem? (getElem?_digits_eq_nib _)
  · rw [hexDigest_getElem? d j hk, getElem?_digits_eq_nib]

end Sys2Proof.Machine

namespace Sys2Proof.Machine

/-! The commands beside the fields they neither read nor write: DATA, and PEND and BUSY, which the completion clears
(40_commands.md rule R93). -/

/-- `b` with the given DATA, PEND and BUSY. -/
def Block.withFront (b : Block) (d : Word) (q : Option Pending) (u : Bool) : Block :=
  { b with data := d, pend := q, busy := u }

/-- `b` with `d` in DATA and nothing in flight: the block between the commands of a host program. -/
def Block.idle (b : Block) (d : Word) : Block := b.withFront d none false

section
variable (d : Word) (q : Option Pending) (u : Bool)

theorem Block.append_withFront (b : Block) (x : Byte) :
    (b.withFront d q u).append x = (b.append x).withFront d q u := by
  by_cases h : b.p = 63#6
  · rw [Block.append_of_eq x h]; exact Block.append_of_eq x h
  · rw [Block.append_of_ne x h]; exact Block.append_of_ne x h

theorem Block.appendAll_withFront (xs : List Byte) (b : Block) :
    (b.withFront d q u).appendAll xs = (b.appendAll xs).withFront d q u := by
  induction xs generalizing b with
  | nil => rfl
  | cons x xs ih => rw [Block.appendAll_cons, Block.append_withFront, ih, Block.appendAll_cons]

theorem Block.absorb_withFront (b : Block) (x : Byte) :
    (b.withFront d q u).absorb x = (b.absorb x).withFront d q u := by
  rw [Block.absorb, Block.append_withFront]; rfl

theorem Block.absorbAll_withFront (xs : List Byte) (b : Block) :
    (b.withFront d q u).absorbAll xs = (b.absorbAll xs).withFront d q u := by
  induction xs generalizing b with
  | nil => rfl
  | cons x xs ih => rw [Block.absorbAll_cons, Block.absorb_withFront, ih, Block.absorbAll_cons]

theorem Block.pushEffect_withFront (x : Word) (b : Block) :
    (b.withFront d q u).pushEffect x = (b.pushEffect x).withFront d q u := by
  rcases Nat.lt_or_ge maxCodePoint x.toNat with hx | hx
  · rw [Block.pushEffect_of_gt _ hx, Block.pushEffect_of_gt _ hx]; rfl
  · rw [Block.pushEffect_of_le _ hx, Block.pushEffect_of_le _ hx, Block.absorbAll_withFront]

theorem Block.finalEffect_withFront (b : Block) :
    (b.withFront d q u).finalEffect = b.finalEffect.withFront d q u := by
  rcases ho : b.ovf with _ | _
  · have hpad : (b.withFront d q u).padding = b.padding := rfl
    rw [Block.finalEffect_of_not_ovf ho, Block.finalEffect_of_not_ovf (b := b.withFront d q u) ho, hpad,
      Block.appendAll_withFront]
    rfl
  · rw [Block.finalEffect_of_ovf ho, Block.finalEffect_of_ovf (b := b.withFront d q u) ho]; rfl

theorem effectOf_withFront (i : Instr) (x : Word) (b : Block) :
    effectOf i x (b.withFront d q u) = (effectOf i x b).withFront d q u := by
  cases i with
  | nop => rfl
  | init => rfl
  | pushCp => exact Block.pushEffect_withFront d q u x b
  | final => exact Block.finalEffect_withFront d q u b

theorem effectOf_idle (i : Instr) (x : Word) (b : Block) :
    effectOf i x (b.idle d) = (effectOf i x b).idle d := effectOf_withFront d none false i x b

/-- A completed command leaves the block idle, with its effect on the other fields. -/
theorem effectOf_withFront_finish (i : Instr) (x : Word) (b : Block) :
    (effectOf i x (b.withFront d q u)).finish = (effectOf i x b).idle d := by
  rw [effectOf_withFront]; rfl

end

/-! Host programs under an arbitrary schedule without a reset (30_encoding.md rule R78, 40_commands.md rule R94; log
entry 6). -/

/-- Some number of steps leads from `s` to `t`. -/
def Reaches (s t : State) : Prop := ∃ n, run n s = .next t

theorem Reaches.refl (s : State) : Reaches s s := ⟨0, run_zero s⟩

theorem Reaches.of_step {s t : State} (h : step s = .next t) : Reaches s t := ⟨1, (run_one s).trans h⟩

theorem Reaches.trans {s t u : State} : Reaches s t → Reaches t u → Reaches s u
  | ⟨n, hn⟩, ⟨m, hm⟩ => ⟨n + m, (run_add hn).trans hm⟩

/-- `s` stands at block `b` with the host program `ops` to go, and no reset is scheduled. -/
structure State.At (s : State) (b : Block) (ops : List HostOp) : Prop where
  blk : s.blk = b
  host : s.host = ops
  no_reset : Turn.reset ∉ s.sched

/-- While BUSY = 0 only idle turns of the engine can come before the host's next turn. -/
theorem State.At.reaches_hostTurn {s : State} {b : Block} {ops : List HostOp} (h : s.At b ops) (hb : b.busy = false) :
    ∃ t, Reaches s t ∧ t.turn = .host ∧ t.At b ops ∧ t.replies = s.replies := by
  induction hsched : s.sched generalizing s with
  | nil => exact ⟨s, .refl s, State.turn_of_not_busy hsched (h.blk ▸ hb), h, rfl⟩
  | cons first rest ih =>
    have hturn : s.turn = first := by simp [State.turn, hsched]
    cases first with
    | host => exact ⟨s, .refl s, hturn, h, rfl⟩
    | reset => exact absurd h.no_reset (by simp [hsched])
    | engine =>
      have hrest : s.popTurn.sched = rest := by simp [hsched]
      obtain ⟨t, hreach, ht⟩ := ih (s := s.popTurn) ⟨h.blk, h.host, mt List.mem_of_mem_tail h.no_reset⟩ hrest
      exact ⟨t, (Reaches.of_step (step_idle hturn (h.blk ▸ hb))).trans hreach, ht⟩

/-- The lines `ops` of a host program take the block from `b` to `b'`, whatever program follows and whatever the
schedule without a reset. -/
def Runs (b : Block) (ops : List HostOp) (b' : Block) : Prop :=
  ∀ (s : State) (rest : List HostOp), s.At b (ops ++ rest) → ∃ t, Reaches s t ∧ t.At b' rest

theorem Runs.nil (b : Block) : Runs b [] b := fun s _ h => ⟨s, .refl s, h⟩

theorem Runs.append {b c d : Block} {xs ys : List HostOp} (hx : Runs b xs c) (hy : Runs c ys d) :
    Runs b (xs ++ ys) d := by
  intro s rest h
  rw [List.append_assoc] at h
  obtain ⟨t, hst, ht⟩ := hx s _ h
  obtain ⟨u, htu, hu⟩ := hy t _ ht
  exact ⟨u, hst.trans htu, hu⟩

/-- A write line while BUSY = 0 is RegWrite (40_commands.md rule R111). -/
theorem runs_wr {b : Block} (hb : b.busy = false) {off : BitVec 6} (v : Word) (hadm : accessAdmitted 4 off = true) :
    Runs b [.wr off v] (b.regWrite off v) := by
  intro s rest h
  obtain ⟨t, hreach, hturn, ht, -⟩ := h.reaches_hostTurn hb
  have hstep := step_wr hturn ht.host
  rw [State.access_write_of_admitted _ v hadm] at hstep
  exact ⟨_, hreach.trans (.of_step hstep), by simp [ht.blk], rfl, mt List.mem_of_mem_tail ht.no_reset⟩

/-- A poll while BUSY = 0 reads STATUS once (30_encoding.md rule R78). -/
theorem runs_poll_idle {b : Block} (hb : b.busy = false) : Runs b [.poll] b := by
  intro s rest h
  obtain ⟨t, hreach, hturn, ht, -⟩ := h.reaches_hostTurn hb
  refine ⟨_, hreach.trans (.of_step (step_poll hturn ht.host)), ?_, ?_, mt List.mem_of_mem_tail ht.no_reset⟩
  · simp [ht.blk]
  · simp [ht.blk, hb]

/-- While BUSY = 1 the host's turn at a poll reads STATUS and stays there (30_encoding.md rule R78). -/
theorem State.At.step_poll_busy {s : State} {b : Block} {rest : List HostOp} (h : s.At b (.poll :: rest))
    (hb : b.busy = true) (hturn : s.turn = .host) :
    ∃ t, step s = .next t ∧ t.At b (.poll :: rest) ∧ t.sched = s.sched.tail :=
  ⟨_, step_poll hturn h.host, ⟨by simp [h.blk], by simp [h.blk, hb], mt List.mem_of_mem_tail h.no_reset⟩, rfl⟩

/-- At the engine's turn the command in flight completes (40_commands.md rule R93). -/
theorem State.At.step_completes {s : State} {b : Block} {ops : List HostOp} {i : Instr} {x : Word} (h : s.At b ops)
    (hb : b.busy = true) (hp : b.pend = some ⟨i, x⟩) (hturn : s.turn = .engine) :
    ∃ t, step s = .next t ∧ t.At (effectOf i x b).finish ops :=
  ⟨_, (step_engine hturn (h.blk ▸ hb) (h.blk ▸ hp)).trans (exec_eq i _),
    by simp [h.blk, Block.operand_of_pend hp], h.host, mt List.mem_of_mem_tail h.no_reset⟩

/-- A poll while BUSY = 1 waits for the completion of the command in flight, by induction over the schedule: the host's
turns stay at the poll, and the engine moves at its first turn or where the schedule is used up (40_commands.md rule
R94). -/
theorem runs_poll_busy {b : Block} {i : Instr} {x : Word} (hb : b.busy = true) (hp : b.pend = some ⟨i, x⟩) :
    Runs b [.poll] (effectOf i x b).finish := by
  intro s rest h
  have completed {s : State} (h : s.At b (.poll :: rest)) (hturn : s.turn = .engine) :
      ∃ t, Reaches s t ∧ t.At (effectOf i x b).finish rest := by
    obtain ⟨t, hstep, ht⟩ := h.step_completes hb hp hturn
    obtain ⟨v, hreach, hv⟩ := runs_poll_idle rfl t rest ht
    exact ⟨v, (Reaches.of_step hstep).trans hreach, hv⟩
  induction hsched : s.sched generalizing s with
  | nil => exact completed h (State.turn_of_busy hsched (h.blk ▸ hb))
  | cons first later ih =>
    have hturn : s.turn = first := by simp [State.turn, hsched]
    cases first with
    | engine => exact completed h hturn
    | reset => exact absurd h.no_reset (by simp [hsched])
    | host =>
      obtain ⟨t, hstep, ht, hlater⟩ := h.step_poll_busy hb hturn
      obtain ⟨v, hreach, hv⟩ := ih t ht (by rw [hlater, hsched, List.tail_cons])
      exact ⟨v, (Reaches.of_step hstep).trans hreach, hv⟩

/-! A command of a host program, written and polled for (30_encoding.md rule R79; 40_commands.md rules R91, R93). -/

/-- What a command written by the host comes to: its effect where it is legal, else its rejection. -/
def Block.hostCommand (i : Instr) (x : Word) (b : Block) : Block :=
  if legalIn i b.state then effectOf i x b else b.reject

theorem Block.hostCommand_of_legal {b : Block} {i : Instr} (x : Word) (h : legalIn i b.state = true) :
    b.hostCommand i x = effectOf i x b := if_pos h

theorem Block.hostCommand_of_illegal {b : Block} {i : Instr} (x : Word) (h : ¬ legalIn i b.state = true) :
    b.hostCommand i x = b.reject := if_neg h

/-- A legal command is latched with DATA as its operand, and the poll ends after its completion. -/
theorem runs_legal_command {b : Block} {i : Instr} (hb : b.busy = false) (hl : legalIn i b.state = true) :
    Runs b [.wr offCmd (encode i), .poll] ((effectOf i b.data b).idle b.data) := by
  have hwr : Runs b [.wr offCmd (encode i)] (b.latch i) := by
    rw [← Block.accept_of_legal hb (decode_encode i) hl]
    exact runs_wr hb _ (by decide)
  have hpoll : Runs (b.latch i) [.poll] (effectOf i b.data (b.latch i)).finish := runs_poll_busy rfl rfl
  have hlatch : b.latch i = b.withFront b.data (some ⟨i, b.data⟩) true := rfl
  have heffect : (effectOf i b.data (b.latch i)).finish = (effectOf i b.data b).idle b.data := by
    rw [hlatch, effectOf_withFront_finish]
  exact hwr.append (heffect ▸ hpoll)

theorem runs_command (b : Block) (i : Instr) (d : Word) :
    Runs (b.idle d) [.wr offCmd (encode i), .poll] ((b.hostCommand i d).idle d) := by
  by_cases hl : legalIn i b.state = true
  · have heffect : (effectOf i d (b.idle d)).idle d = (effectOf i d b).idle d := by
      rw [effectOf_idle]; rfl
    rw [Block.hostCommand_of_legal d hl, ← heffect]
    exact runs_legal_command rfl hl
  · have hreject : (b.idle d).regWrite offCmd (encode i) = b.reject.idle d :=
      ((b.idle d).accept_encode i).trans (if_neg fun h => hl h.2)
    rw [Block.hostCommand_of_illegal d hl, ← hreject]
    exact (runs_wr rfl _ (by decide)).append (runs_poll_idle (by rw [hreject]; rfl))

/-- INIT is legal in every STATE (40_commands.md rule R101). -/
theorem runs_pseudoInit {b : Block} (hb : b.busy = false) : Runs b pseudoInit (b.initEffect.idle b.data) :=
  runs_legal_command (i := .init) hb rfl

theorem runs_pseudoPush (b : Block) (d c : Word) :
    Runs (b.idle d) (pseudoPush c) ((b.hostCommand .pushCp c).idle c) :=
  (runs_wr (b := b.idle d) rfl c (by decide)).append (runs_command b .pushCp c)

/-- FINAL has no operand. -/
theorem runs_pseudoFinal (b : Block) (d : Word) : Runs (b.idle d) pseudoFinal ((b.hostCommand .final 0#32).idle d) :=
  runs_command b .final d

theorem runs_pushes (cs : List Word) (b : Block) (d : Word) :
    ∃ d', Runs (b.idle d) (cs.flatMap pseudoPush) ((cs.foldl (fun x c => x.hostCommand .pushCp c) b).idle d') := by
  induction cs generalizing b d with
  | nil => exact ⟨d, .nil _⟩
  | cons c cs ih =>
    obtain ⟨d', h⟩ := ih (b.hostCommand .pushCp c) c
    exact ⟨d', (runs_pseudoPush b d c).append h⟩

/-- The block after the commands of `HASH "t"`, but for DATA (30_encoding.md rule R79). -/
def Block.hashed (b : Block) (cs : List Word) : Block :=
  (cs.foldl (fun x c => x.hostCommand .pushCp c) b.initEffect).hostCommand .final 0#32

theorem runs_hash_commands {b : Block} (hb : b.busy = false) (cs : List Word) :
    ∃ d, Runs b (pseudoInit ++ cs.flatMap pseudoPush ++ pseudoFinal) ((b.hashed cs).idle d) := by
  obtain ⟨d, hpushes⟩ := runs_pushes cs b.initEffect b.data
  exact ⟨d, ((runs_pseudoInit hb).append hpushes).append (runs_pseudoFinal _ d)⟩

/-! The reads at the end of a host program (30_encoding.md rules R78, R79). -/

theorem State.At.reaches_read {s : State} {b : Block} {off : BitVec 6} {rest : List HostOp}
    (h : s.At b (.rd off :: rest)) (hb : b.busy = false) (hadm : accessAdmitted 4 off = true) :
    ∃ t, Reaches s t ∧ t.At b rest ∧ t.replies = .value (b.regRead off) :: s.replies := by
  obtain ⟨t, hreach, hturn, ht, hreplies⟩ := h.reaches_hostTurn hb
  have hstep := step_rd hturn ht.host
  rw [State.access_read_of_admitted _ hadm] at hstep
  exact ⟨_, hreach.trans (.of_step hstep), ⟨ht.blk, rfl, mt List.mem_of_mem_tail ht.no_reset⟩,
    by simp [ht.blk, hreplies]⟩

/-- A run of reads records the value of each, newest first, and leaves the block alone (40_commands.md rule R110). -/
theorem State.At.reaches_reads {s : State} {b : Block} {offs : List (BitVec 6)} (h : s.At b (offs.map .rd))
    (hb : b.busy = false) (hadm : ∀ off ∈ offs, accessAdmitted 4 off = true) :
    ∃ t, Reaches s t ∧ t.At b [] ∧ t.replies = (offs.map fun off => .value (b.regRead off)).reverse ++ s.replies := by
  induction offs generalizing s with
  | nil => exact ⟨s, .refl s, h, rfl⟩
  | cons off offs ih =>
    obtain ⟨hoff, hoffs⟩ := List.forall_mem_cons.mp hadm
    obtain ⟨t, hst, ht, hfirst⟩ := h.reaches_read hb hoff
    obtain ⟨v, htv, hv, hlater⟩ := ih ht hoffs
    exact ⟨v, hst.trans htv, hv, by simp [hlater, hfirst]⟩

/-- The offsets `HASH "t"` reads at its end: STATUS and DIGEST0 to DIGEST7 (30_encoding.md rule R79). -/
def resultOffsets : List (BitVec 6) :=
  [offStatus, offDigest 0, offDigest 1, offDigest 2, offDigest 3, offDigest 4, offDigest 5, offDigest 6, offDigest 7]

theorem regOf_offStatus : regOf offStatus = .status := rfl

theorem pseudoHash_eq (cs : List Word) :
    pseudoHash cs = (pseudoInit ++ cs.flatMap pseudoPush ++ pseudoFinal) ++ resultOffsets.map .rd := by
  rw [pseudoHash, List.append_assoc (_ ++ _ ++ pseudoFinal)]; rfl

/-- The program `HASH "t"` comes to its end with the block its commands leave and the values of its nine reads. -/
theorem reaches_end_of_hash {s : State} {cs : List Word} (hb : s.blk.busy = false) (hh : s.host = pseudoHash cs)
    (hr : Turn.reset ∉ s.sched) :
    ∃ t d, Reaches s t ∧ t.At ((s.blk.hashed cs).idle d) [] ∧
      ∃ earlier, t.replies = (resultOffsets.map fun off => .value (t.blk.regRead off)).reverse ++ earlier := by
  obtain ⟨d, hcommands⟩ := runs_hash_commands hb cs
  obtain ⟨t, hst, ht⟩ := hcommands s _ ⟨rfl, hh.trans (pseudoHash_eq cs), hr⟩
  obtain ⟨v, htv, hv, hreplies⟩ := ht.reaches_reads rfl (by decide)
  exact ⟨v, d, hst.trans htv, hv, t.replies, by rw [hreplies, hv.blk]⟩

/-! The block after `HASH "t"` (44_digest.md rule R191). -/

/-- Pushes of code points within the limit absorb their message, and the hash goes on. -/
theorem Block.foldl_hostCommand_of_encodable {cs : List Word} (h : ∀ c ∈ cs, c.toNat ≤ maxCodePoint) {b : Block}
    (hs : b.state = .absorb) : cs.foldl (fun x c => x.hostCommand .pushCp c) b = b.absorbAll (messageOf cs) := by
  induction cs generalizing b with
  | nil => rfl
  | cons c cs ih =>
    obtain ⟨hc, hcs⟩ := List.forall_mem_cons.mp h
    have hpush : b.hostCommand .pushCp c = b.absorbAll (utf8Bytes c) :=
      (Block.hostCommand_of_legal c (by simp [legalIn, hs])).trans (b.pushEffect_of_le hc)
    rw [List.foldl_cons, hpush, ih hcs (by simp [hs]), messageOf_cons, Block.absorbAll_append]

/-- Outside ABSORB pushes and FINAL are only rejected (40_commands.md rule R91). -/
theorem Block.final_of_rejected_pushes (cs : List Word) {b : Block} (hs : b.state ≠ .absorb) :
    (cs.foldl (fun x c => x.hostCommand .pushCp c) b).hostCommand .final 0#32 = b.reject := by
  induction cs generalizing b with
  | nil => exact Block.hostCommand_of_illegal _ (by simp [legalIn, hs])
  | cons c cs ih =>
    have hpush : b.hostCommand .pushCp c = b.reject := Block.hostCommand_of_illegal c (by simp [legalIn, hs])
    rw [List.foldl_cons, hpush, ih (by simpa using hs)]
    rfl

/-- With every code point within the limit, FINAL finds the whole message absorbed. -/
theorem Block.hashed_of_encodable (b : Block) {cs : List Word} (h : ∀ c ∈ cs, c.toNat ≤ maxCodePoint) :
    b.hashed cs = (b.initEffect.absorbAll (messageOf cs)).finalEffect := by
  rw [Block.hashed, Block.foldl_hostCommand_of_encodable h rfl]
  exact Block.hostCommand_of_legal _ (by simp [legalIn])

/-- At the first code point above the limit the error entry is taken, and everything after it is rejected. -/
theorem Block.hashed_of_encodingError (b : Block) {before after : List Word} {c : Word}
    (h : ∀ c ∈ before, c.toNat ≤ maxCodePoint) (hc : maxCodePoint < c.toNat) :
    b.hashed (before ++ c :: after) =
      ((b.initEffect.absorbAll (messageOf before)).raise .encodingError c).reject := by
  have hpush : (b.initEffect.absorbAll (messageOf before)).hostCommand .pushCp c =
      (b.initEffect.absorbAll (messageOf before)).raise .encodingError c :=
    (Block.hostCommand_of_legal c (by simp [legalIn])).trans (Block.pushEffect_of_gt _ hc)
  rw [Block.hashed, List.foldl_append, List.foldl_cons, Block.foldl_hostCommand_of_encodable h rfl, hpush]
  exact Block.final_of_rejected_pushes after (by simp)

/-- LEN_HI and LEN_LO side by side are L (10_state.md rule R38). -/
theorem Block.lenHi_append_lenLo (b : Block) : b.readReg .lenHi ++ b.readReg .lenLo = b.l :=
  BitVec.extractLsb'_append_extractLsb' (w := 32) (len := 32)

/-- Outside DONE the digest reads 0 (10_state.md rule R44). -/
theorem Block.readReg_digest_of_ne {b : Block} (h : b.state ≠ .done) (j : Fin 8) : b.readReg (.digest j) = 0#32 :=
  if_neg h

/-- A message below the limit: DONE with its length and its digest. -/
theorem Block.finalEffect_absorbAll_shows (b : Block) {m : List Byte} (h : 8 * m.length < 2 ^ 64) :
    let b' := (b.initEffect.absorbAll m).finalEffect
    b'.state = .done ∧ b'.errcode = 0#4 ∧ b'.rej = false ∧
      (b'.readReg .lenHi ++ b'.readReg .lenLo) = BitVec.ofNat 64 (8 * m.length) ∧
      ∀ j : Fin 8, b'.readReg (.digest j) = (digestOf m)[j] := by
  obtain ⟨hstate, -, hh, -⟩ := b.finalEffect_absorbAll h
  have hovf : (b.initEffect.absorbAll m).ovf = false := by
    rw [Block.initEffect_absorbAll_ovf]; exact decide_eq_false (by omega)
  refine ⟨hstate, ?_, ?_, ?_, fun j => ?_⟩
  · simp [Block.finalEffect_of_not_ovf hovf]
  · simp
  · rw [Block.lenHi_append_lenLo, Block.finalEffect_l, Block.initEffect_absorbAll_l]
  · rw [Block.readReg, if_pos hstate, hh]; rfl

/-- The block after `HASH "t"` shows the document's result: the first code point above the limit, the length error, or
the digest. -/
theorem Block.hashed_showsResult (b : Block) (cs : List Word) : (b.hashed cs).ShowsResult cs := by
  unfold Block.ShowsResult hashText
  rcases hfirst : firstTooLarge cs with _ | c
  · have hle : ∀ c ∈ cs, c.toNat ≤ maxCodePoint := by simpa [firstTooLarge] using hfirst
    rw [b.hashed_of_encodable hle]
    by_cases hlen : 2 ^ 64 ≤ 8 * (messageOf cs).length
    · have hovf : (b.initEffect.absorbAll (messageOf cs)).ovf = true := by
        rw [Block.initEffect_absorbAll_ovf]; exact decide_eq_true hlen
      simp only [hlen, if_true, Block.finalEffect_of_ovf hovf]
      exact ⟨rfl, rfl, rfl, hovf, by simp, Block.readReg_digest_of_ne (by simp)⟩
    · simp only [hlen, if_false]
      exact b.finalEffect_absorbAll_shows (by omega)
  · obtain ⟨hc, before, after, rfl, hbefore⟩ := List.find?_eq_some_iff_append.mp hfirst
    rw [b.hashed_of_encodingError (by simpa using hbefore) (by simpa using hc)]
    exact ⟨rfl, rfl, rfl, rfl, Block.readReg_digest_of_ne (by simp)⟩

/-- A block that shows a result is in DONE or ERROR (70_reset_and_hazards.md rule R240). -/
theorem Block.ShowsResult.ended {b : Block} {cs : List Word} (h : b.ShowsResult cs) :
    b.state = .done ∨ b.state = .error := by
  unfold Block.ShowsResult at h
  split at h
  · exact .inr h.1
  · exact .inr h.1
  · exact .inl h.1

/-- Settles O46: the program comes to its end with the block its commands leave, which shows the result, and its nine
reads are the last. -/
theorem hashProgramGivesTheDocumentsResult : Obligations.HashProgramGivesTheDocumentsResult := by
  intro s cs hb hh hr
  obtain ⟨t, d, ⟨n, hrun⟩, ht, earlier, hreplies⟩ := reaches_end_of_hash hb hh hr
  have hshows : t.blk.ShowsResult cs := ht.blk ▸ s.blk.hashed_showsResult cs
  have hbusy : t.blk.busy = false := by rw [ht.blk]; rfl
  refine ⟨n, t, hrun, ht.host, ⟨hbusy, hshows.ended⟩, hshows, ?_⟩
  rw [hreplies]
  simp [resultOffsets, Block.regRead, regOf_offStatus]

end Sys2Proof.Machine

namespace Sys2Proof.Machine

/-! The way into ERROR and out of it (60_exceptions.md rules R201, R202, R203, R205). -/

/-- A command that completes in a step is what the step executes (40_commands.md rule R93). -/
theorem Completes.step_eq {s : State} {i : Instr} (h : Completes s i) : step s = exec i s.popTurn := by
  obtain ⟨hturn, hfetch⟩ := h
  obtain ⟨hb, x, hp⟩ := Block.fetch_command_iff.mp hfetch
  exact step_engine hturn hb hp

/-- A command completes only in a state it is legal in (40_commands.md rule R91, third check). -/
theorem Completes.legal {s : State} {i : Instr} (h : Completes s i) (hinv : s.blk.Inv) :
    legalIn i s.blk.state = true := by
  obtain ⟨-, x, hp⟩ := Block.fetch_command_iff.mp h.2
  exact hinv.pendLegal _ hp

/-- Settles O33: of the commands, PUSH_CP and FINAL could also write the error detail (`writersOfTheFlags`), but they are
not legal in ERROR. -/
theorem errorIsLeftOnlyByInitOrReset : Obligations.ErrorIsLeftOnlyByInitOrReset := by
  intro s t hinv herr h
  by_cases hreset : s.turn = .reset
  · rw [step_reset hreset] at h
    obtain rfl := Host.Outcome.next.inj h
    exact .inr (.inr ⟨hreset, rfl, rfl, rfl⟩)
  by_cases hinit : Completes s .init
  · rw [hinit.step_eq, exec_init] at h
    obtain rfl := Host.Outcome.next.inj h
    exact .inr (.inl ⟨hinit, rfl, rfl, rfl⟩)
  · have unwritten : ¬(t.blk.state ≠ s.blk.state ∨ t.blk.errcode ≠ s.blk.errcode ∨ t.blk.errval ≠ s.blk.errval) := by
      intro hwritten
      obtain ⟨hwriter, -⟩ := writersOfTheFlags s t h hreset hinit
      obtain hfinal | ⟨hpush, -⟩ := hwriter hwritten
      · exact absurd (herr ▸ hfinal.legal hinv) (by decide)
      · exact absurd (herr ▸ hpush.legal hinv) (by decide)
    simp only [not_or, not_not] at unwritten
    obtain ⟨hstate, hcode, hval⟩ := unwritten
    exact .inl ⟨hinit, hreset, hstate.trans herr, hcode, hval⟩

/-- Settles O10: both completions are the error entry of `Block.raise`. -/
theorem errorEntryWritesOnlyTheDetail : Obligations.ErrorEntryWritesOnlyTheDetail := by
  refine ⟨fun s x hp hx => ?_, fun s ho => ?_⟩
  · rw [exec_pushCp, State.completeWith, Block.operand_of_pend hp, Block.pushEffect_of_gt _ hx]
    rfl
  · rw [exec_final, State.completeWith, Block.finalEffect_of_ovf ho]
    rfl

/-! Several instances on one bus: what an access and a turn do to each (60_exceptions.md rule R215). -/

/-- Every step keeps a system well-formed, which is about the windows alone. -/
theorem System.step_wf {sys sys' : System} {ev : SystemEvent} (hwf : sys.wf = true) (h : sys.step ev = .next sys') :
    sys'.wf = true := by
  rw [System.wf_iff] at hwf ⊢
  rwa [System.step_slots h]

theorem System.step_access_next {sys sys' : System} {a : BusAccess} (h : sys.step (.access a) = .next sys') :
    sys' = sys.access a := (Host.Outcome.next.inj h).symm

/-- An access acts on each instance by itself. -/
theorem System.access_getElem? (sys : System) (a : BusAccess) (k : Nat) :
    (sys.access a).insts[k]? = sys.insts[k]?.map fun q => q.accessed a := List.getElem?_map

/-- An access in the window of one instance is outside the window of every other (20_memory.md rule R51). -/
theorem System.offset_eq_none_of_ne {sys : System} (hwf : sys.wf = true) {j k : Nat} {q r : Placed} {addr : Nat}
    (hj : sys.insts[j]? = some r) (hk : sys.insts[k]? = some q) (hq : (q.offset addr).isSome = true) (hne : j ≠ k) :
    r.offset addr = none := by
  by_contra hr
  exact hne (System.index_eq_of_slot_eq hwf hj hk (Placed.slot_eq_of_offset (Option.isSome_iff_ne_none.mpr hr) hq))

/-- An access in the window of one instance leaves every other as it was. -/
theorem System.access_getElem?_of_ne {sys : System} (hwf : sys.wf = true) {a : BusAccess} {j k : Nat} {q : Placed}
    (hk : sys.insts[k]? = some q) (hq : (q.offset a.addr).isSome = true) (hne : j ≠ k) :
    (sys.access a).insts[j]? = sys.insts[j]? := by
  rw [System.access_getElem?]
  rcases hj : sys.insts[j]? with _ | r
  · rfl
  · exact congrArg some (Placed.accessed_of_outside (System.offset_eq_none_of_ne hwf hj hk hq hne))

/-- An access in no window changes no instance (20_memory.md rule R51). -/
theorem System.access_insts_of_outside {sys : System} {a : BusAccess} (h : ∀ q ∈ sys.insts, q.offset a.addr = none) :
    (sys.access a).insts = sys.insts :=
  (List.map_congr_left fun q hq => Placed.accessed_of_outside (h q hq)).trans (List.map_id' _)

/-- A turn of an instance that is not there changes nothing. -/
theorem System.step_turn_of_absent {sys : System} {k : Nat} (t : Turn) (hk : sys.insts[k]? = none) :
    sys.step (.turn k t) = .next sys := by
  simp only [System.step, hk]

/-- A turn of an instance gives it the block its own step gives it. -/
theorem System.step_turn_of_alone {sys : System} {k : Nat} {t : Turn} {q : Placed} {s : State}
    (hk : sys.insts[k]? = some q) (hs : Machine.step (q.alone t) = .next s) :
    sys.step (.turn k t) = .next { sys with insts := sys.insts.set k { q with blk := s.blk } } := by
  simp only [System.step, hk, hs]

/-- A turn of instance `k`: without one nothing changes, and else that instance alone moves, as it does alone. -/
theorem System.step_turn_cases {sys sys' : System} {k : Nat} {t : Turn} (h : sys.step (.turn k t) = .next sys') :
    (sys.insts[k]? = none ∧ sys' = sys) ∨
    ∃ q s, sys.insts[k]? = some q ∧ Machine.step (q.alone t) = .next s ∧
      sys' = { sys with insts := sys.insts.set k { q with blk := s.blk } } := by
  obtain ⟨a, hev, -⟩ | ⟨k', t', hev, hk, hsys⟩ | ⟨k', t', q, s, hev, hk, hs, hsys⟩ := System.step_cases h <;> cases hev
  · exact .inl ⟨hk, hsys⟩
  · exact .inr ⟨q, s, hk, hs, hsys⟩

/-- Settles O53: a turn by `System.step_turn_cases`, an access by the one window that can hold its address. -/
theorem instancesShareNothing : Obligations.InstancesShareNothing := by
  intro sys sys' ev hwf h
  refine ⟨System.step_wf hwf h, System.step_slots h, ?turn, ?inside, ?outside⟩
  case turn =>
    rintro k t rfl
    obtain ⟨hk, rfl⟩ | ⟨q, s, hk, hs, rfl⟩ := System.step_turn_cases h
    · exact ⟨rfl, fun _ _ => rfl, fun _ => rfl, fun q hq => by simp [hk] at hq⟩
    · refine ⟨rfl, fun j hj => List.getElem?_set_ne hj.symm, fun hnone => by simp [hk] at hnone, fun r hr => ?_⟩
      obtain rfl : q = r := Option.some.inj (hk.symm.trans hr)
      obtain ⟨hlt, -⟩ := List.getElem?_eq_some_iff.mp hk
      exact ⟨s, hs, List.getElem?_set_self hlt⟩
  case inside =>
    rintro a k q off rfl hk haddr
    obtain rfl := System.step_access_next h
    have hoff : q.offset a.addr = some off := by rw [haddr]; exact q.offset_add off
    refine ⟨?_, congrArg (· :: sys.replies) (System.replyTo_of_offset hwf hk hoff), fun j hj => ?_⟩
    · rw [System.access_getElem?, hk, Option.map_some, Placed.accessed_of_offset hoff]
    · exact System.access_getElem?_of_ne hwf hk (by simp [hoff]) hj
  case outside =>
    rintro a rfl hout
    obtain rfl := System.step_access_next h
    have hnone : ∀ q ∈ sys.insts, q.offset a.addr = none := fun q hq => windowOffset_outside (hout q hq)
    exact ⟨System.access_insts_of_outside hnone, congrArg (· :: sys.replies) (System.replyTo_of_outside hnone)⟩

/-! Every run of a system is safe, and keeps the invariant of each instance (10_state.md rule R37). -/

/-- Every instance meets the invariant. -/
def System.Inv (sys : System) : Prop := ∀ q ∈ sys.insts, q.blk.Inv

/-- An access keeps the invariant: it is what the host's turn makes of a line `bus`. -/
theorem Block.Inv.accessed {b : Block} (hb : b.Inv) (off : BitVec 6) (n : Nat) (k : AccessKind) :
    (b.accessed off n k).Inv := by
  have h := State.hostTurn_inv
    { State.reset with blk := b, host := [.bus { addr := Config.base + off.toNat, bytes := n, kind := k }] } hb
  simp only [State.hostTurn] at h
  rwa [State.busAccess_inside _ rfl] at h

theorem Placed.accessed_inv {q : Placed} (hq : q.blk.Inv) (a : BusAccess) : (q.accessed a).blk.Inv := by
  rcases hoff : q.offset a.addr with _ | off
  · rwa [Placed.accessed_of_outside hoff]
  · rw [Placed.accessed_of_offset hoff]
    exact hq.accessed off a.bytes a.kind

theorem System.reset_inv (slots : List Nat) : (System.reset slots).Inv := by
  intro q hq
  rw [System.reset_blk hq]
  exact invariantAtReset

/-- Every step keeps the invariant of every instance. -/
theorem System.Inv.step {sys sys' : System} {ev : SystemEvent} (hinv : sys.Inv) (h : sys.step ev = .next sys') :
    sys'.Inv := by
  obtain ⟨a, -, rfl⟩ | ⟨k, t, -, -, rfl⟩ | ⟨k, t, q, s, -, hk, hs, rfl⟩ := System.step_cases h
  · intro r hr
    obtain ⟨q, hq, rfl⟩ := List.mem_map.mp hr
    exact Placed.accessed_inv (hinv q hq) a
  · exact hinv
  · intro r hr
    obtain hold | rfl := List.mem_or_eq_of_mem_set hr
    · exact hinv r hold
    · exact Block.Inv.step (s := q.alone t) (hinv q (List.mem_of_getElem? hk)) hs

/-- Under the invariant every event has a next state: only an instance's own step could stop, and it does not. -/
theorem System.Inv.step_next {sys : System} (hinv : sys.Inv) (ev : SystemEvent) : ∃ sys', sys.step ev = .next sys' := by
  cases ev with
  | access a => exact ⟨_, rfl⟩
  | turn k t =>
    rcases hk : sys.insts[k]? with _ | q
    · exact ⟨sys, System.step_turn_of_absent t hk⟩
    · obtain ⟨s, hs⟩ := noStepStopsUnderTheInvariant (q.alone t) (hinv q (List.mem_of_getElem? hk))
      exact ⟨_, System.step_turn_of_alone hk hs⟩

/-- Every run from a system that meets the invariant ends in one that does, with every instance in its window. -/
theorem System.Inv.run_next {sys : System} (hinv : sys.Inv) (evs : List SystemEvent) :
    ∃ sys', System.run evs sys = .next sys' ∧ sys'.insts.map Placed.slot = sys.insts.map Placed.slot ∧ sys'.Inv := by
  induction evs generalizing sys with
  | nil => exact ⟨sys, rfl, rfl, hinv⟩
  | cons ev evs ih =>
    obtain ⟨mid, hmid⟩ := hinv.step_next ev
    obtain ⟨sys', hrun, hslots, hinv'⟩ := ih (hinv.step hmid)
    exact ⟨sys', (System.run_cons evs hmid).trans hrun, hslots.trans (System.step_slots hmid), hinv'⟩

/-- Settles O54: the reset block in every instance, and from there `System.Inv.run_next`. -/
theorem instancesStartInTheResetState : Obligations.InstancesStartInTheResetState := by
  intro slots hne hnodup
  have wf_of_slots {sys : System} (h : sys.insts.map Placed.slot = slots) : sys.wf = true := by
    rw [System.wf_iff, h]
    exact ⟨hne, hnodup⟩
  have hslots := System.reset_slots slots
  refine ⟨wf_of_slots hslots, hslots, fun q hq => ?_, fun evs => ?_⟩
  · rw [System.reset_blk hq]
    exact resetState
  · obtain ⟨sys', hrun, hkept, hinv⟩ := (System.reset_inv slots).run_next evs
    have hslots' := hkept.trans hslots
    exact ⟨sys', hrun, wf_of_slots hslots', hslots', hinv⟩

end Sys2Proof.Machine

namespace Sys2Proof.Machine

/-! A command in flight: what the host can do to it, and what a reset does (70_reset_and_hazards.md rules R230, R231,
R233, R234). -/

/-- While BUSY = 1 a host turn writes at most DATA and REJ, and never clears REJ: of the four fields of
`State.hostTurn_writes` BUSY and PEND stay (40_commands.md rule R91). -/
theorem State.hostTurn_writes_of_busy {s : State} (hb : s.blk.busy = true) :
    ∃ d r, s.hostTurn.blk = { s.blk with data := d, rej := r } ∧ (s.blk.rej = true → r = true) := by
  obtain ⟨d, r, q, u, hw, hr⟩ := s.hostTurn_writes
  obtain ⟨hbusy, hpend⟩ := State.hostTurn_keeps_pend hb
  rw [hw] at hbusy hpend
  obtain rfl : q = s.blk.pend := hpend
  obtain rfl : u = s.blk.busy := hbusy.trans hb.symm
  exact ⟨d, r, hw, hr⟩

/-- Settles O6: a step on a host turn is the host's turn, and `State.hostTurn_writes_of_busy` says what it writes. -/
theorem hostCannotDisturbTheCommandInFlight : Obligations.HostCannotDisturbTheCommandInFlight := by
  intro s t ht hb h
  rw [step_host ht] at h
  obtain rfl := Host.Outcome.next.inj h
  exact State.hostTurn_writes_of_busy (s := s.popTurn) hb

/-- No register of the window shows the model's counter of compressions, in which a block after a reset can differ from
`Block.reset`: so every register reads 0 (10_state.md rule R46). -/
@[simp] theorem Block.afterReset_readReg (b : Block) (r : Reg) : b.afterReset.readReg r = 0#32 := by
  have unseen : b.afterReset.readReg r = Block.reset.readReg r := by cases r <;> rfl
  exact unseen.trans (Block.reset_readReg r)

/-- Settles O28: the fields by definition of the reset turn, the window by `Block.afterReset_readReg`. -/
theorem resetAbandonsTheCommand : Obligations.ResetAbandonsTheCommand := fun s ht =>
  ⟨s.popTurn.resetTurn, step_reset ht, rfl, rfl, rfl, rfl, rfl, rfl, rfl, rfl, rfl, rfl, s.blk.afterReset_readReg,
    rfl, rfl⟩

end Sys2Proof.Machine
